-- ==== Sys2Proof/Word.lean ====
section
/-! DEFINITION. The value types of the codec (00_scope.md R6, R10): symbols, codewords, the block
window and the two flat-bus widths. All values are unsigned; bit 0 is the least significant bit. -/

namespace Sys2Proof

/-- A symbol, or one byte of a serialized block: `SYM_W = 8` (R6). -/
abbrev Byte := BitVec 8

/-- A codeword: `CW_W = 14` (R6). -/
abbrev Bits14 := BitVec 14

/-- The block window: `WIN_W = 112` (R6, R22). -/
abbrev Bits112 := BitVec 112

/-- The parallel symbol bus of eight lanes (R59). -/
abbrev Bits64 := BitVec 64

end Sys2Proof
end

