-- ==== Sys2Proof/Config.lean ====
section
/-! DEFINITION. What is fixed when the codec is built (00_scope.md R7, R8), the entry of the reverse
table, the transient values of a command, and the free values (log 5, log 6). -/

namespace Sys2Proof

/-- The configuration of one codec (10_state.md R25): the forward table (R7, `FWD_SIZE = 256`) and the
largest buffer length (R8). Both are OPEN parameters of the spec (D6, D10). -/
structure Config where
  /-- `FWD`, indexed by symbol (R34). -/
  fwd    : Vector Bits14 256
  /-- `LEN_MAX`, in bytes (R8). -/
  lenMax : Nat
deriving DecidableEq, Repr

/-- One entry of the reverse table: `Valid(sym)` or `Invalid` (20_memory.md R35). -/
inductive RevEntry where
  | valid (sym : Byte)
  | invalid
deriving DecidableEq, Repr

/-- The transient values of a command (10_state.md R22 to R24): the block window W, the lane valid bits
V, and the sequencer's chunk index j and accumulator acc. They are dead once a command ends (R29). -/
structure Scratch where
  window : Bits112
  valid  : Vector Bool 8
  chunk  : Nat
  acc    : List Byte
deriving DecidableEq, Repr, Inhabited

/-- FREE VALUE (log 5): what the transient values hold after a command or a reset, "any value" (I7,
R30). The argument is the state's counter. -/
opaque Config.freeScratch : Nat → Scratch

/-- FREE VALUE (log 6): which of several waiting requesters is accepted next, "in an order the spec
leaves open" (R53, I11). The argument is the state's counter. -/
opaque Config.freeChoice : Nat → Nat

end Sys2Proof
end

