-- ==== Sys2Proof/Syntax.lean ====
section
/-! DEFINITION. The commands of the codec (30_encoding.md R57, R58): one constructor per row of
spec/opcode_table.json. -/

namespace Sys2Proof

/-- A command (R58, "A command is the pair `(OP, payload)`"). A block command's payload has a fixed
length, so a block command with a wrong length cannot be written; a buffer command's payload may have
any length. -/
inductive Instr where
  /-- ENC_BLK, `OP = 0b00`: `sym[i]` is lane i. -/
  | encBlk (sym : Vector Byte 8)
  /-- DEC_BLK, `OP = 0b01`: `blk[k]` is serialized byte k. -/
  | decBlk (blk : Vector Byte 14)
  /-- ENC_BUF, `OP = 0b10`: `LEN` is the length of `data`. -/
  | encBuf (data : List Byte)
  /-- DEC_BUF, `OP = 0b11`: `LEN` is the length of `data`. -/
  | decBuf (data : List Byte)
deriving DecidableEq, Repr

end Sys2Proof
end

