-- ==== Sys2Proof/WellFormed.lean ====
section
/-! DEFINITION. When a command is one that a codec of the given configuration takes: the payload column
of 30_encoding.md R57. The fixed lengths of block payloads are in their types (R58). -/

namespace Sys2Proof

/-- R57: a block command always; a buffer command with "n bytes, 0 <= n <= LEN_MAX". -/
def Instr.wellFormed (cfg : Config) : Instr → Bool
  | .encBlk _    => true
  | .decBlk _    => true
  | .encBuf data => decide (data.length ≤ cfg.lenMax)
  | .decBuf data => decide (data.length ≤ cfg.lenMax)

end Sys2Proof
end

