-- ==== Sys2Proof/Decode.lean ====
section
/-! DEFINITION. A command as it is presented at the interface, its decoder (30_encoding.md R57, R60,
R69, total over `OP`, refusing by name what R58 says cannot be written), its encoder, and the opcode
table's words. -/

namespace Sys2Proof

/-- A presented command: `OP[1:0]` (R57), the length `LEN` that a buffer command carries (R58, R60;
"absent" for a block command in the opcode table) and the payload bytes, index 0 first (R11). -/
structure Frame where
  op      : BitVec 2
  len     : Option Nat
  payload : List Byte
deriving DecidableEq, Repr

/-- Why a presented command is no command of R58 (log 11). -/
inductive DecodeError where
  /-- A block command whose payload is not 8 (ENC_BLK) or 14 (DEC_BLK) bytes: it "cannot be written"
  (R58). -/
  | blockPayloadLength
  /-- A block command with a `LEN`, which the table calls absent. -/
  | blockWithLen
  /-- A buffer command without the `LEN` that R60 has it carry. -/
  | bufferWithoutLen
  /-- A buffer command whose `LEN` is not the number of its payload bytes (R58: `LEN = len(data)`). -/
  | bufferLenMismatch
deriving DecidableEq, Repr

/-- `OP[0]`, DIR: 0 is encode, 1 is decode (R57). -/
def Frame.dir (f : Frame) : Bool := f.op.getLsbD 0

/-- `OP[1]`, BUF: 0 is one block, 1 is a buffer of blocks (R57). -/
def Frame.buf (f : Frame) : Bool := f.op.getLsbD 1

/-- A block payload of exactly `n` bytes, carried without `LEN` (R58, R60). -/
def blockPayload (n : Nat) (f : Frame) : Except DecodeError (Vector Byte n) :=
  match f.len with
  | some _ => .error .blockWithLen
  | none   =>
    if h : f.payload.length = n then .ok ⟨⟨f.payload⟩, h⟩ else .error .blockPayloadLength

/-- A buffer payload whose length is the `LEN` carried with it (R58, R60). -/
def bufferPayload (f : Frame) : Except DecodeError (List Byte) :=
  match f.len with
  | none   => .error .bufferWithoutLen
  | some n => if n = f.payload.length then .ok f.payload else .error .bufferLenMismatch

/-- The decoder (R69): `0b00 -> ENC_BLK`, `0b01 -> DEC_BLK`, `0b10 -> ENC_BUF`, `0b11 -> DEC_BUF`. The
length is fixed by `OP` or carried; it is never inferred from payload contents (R60). -/
def decode (f : Frame) : Except DecodeError Instr :=
  match f.buf, f.dir with
  | false, false => (blockPayload 8 f).map .encBlk
  | false, true  => (blockPayload 14 f).map .decBlk
  | true,  false => (bufferPayload f).map .encBuf
  | true,  true  => (bufferPayload f).map .decBuf

/-- The encoder: `OP` of R57, `LEN` and payload of R58 and R60. -/
def encode : Instr → Frame
  | .encBlk sym  => ⟨0b00, none, sym.toList⟩
  | .decBlk blk  => ⟨0b01, none, blk.toList⟩
  | .encBuf data => ⟨0b10, some data.length, data⟩
  | .decBuf data => ⟨0b11, some data.length, data⟩

/-- The command of a word of the opcode table with all its operands zero (log 12): `OP` is the word
under the table's mask `0b11` (R69), a block payload is zero bytes and a buffer is empty. -/
def tableFrame (w : Nat) : Frame :=
  let op := BitVec.ofNat 2 (w % 4)
  match op.getLsbD 1, op.getLsbD 0 with
  | false, false => ⟨op, none, List.replicate 8 0#8⟩
  | false, true  => ⟨op, none, List.replicate 14 0#8⟩
  | true,  _     => ⟨op, some 0, []⟩

/-- The command this decoder reads from a word of spec/opcode_table.json (bit 0 of the word is
`OP[0]`). The table's rows have two bits, so no bit at or above `nbits` is read. -/
def decodeTableWord (_nbits w : Nat) : Option Instr :=
  match decode (tableFrame w) with
  | .ok i    => some i
  | .error _ => none

end Sys2Proof
end

