-- ==== Sys2Proof/Machine/Tables.lean ====
section
/-! DEFINITION. The two read-only tables (20_memory.md R34 to R38): reading the forward ROM, building
and reading the reverse ROM, the admission of a configuration, and the reference contents `FWD_EFM`
(R39) that the model starts from (log 2). -/

namespace Sys2Proof.Machine

/-- `RomRead(FWD, s)`: defined for every byte, with no error case (R12, R34). -/
def romReadFwd (fwd : Vector Bits14 256) (s : Byte) : Bits14 := fwd[s.toNat]'s.isLt

/-- `REV[c] <- e` (R36). -/
def writeRev (rev : Bits14 → RevEntry) (c : Bits14) (e : RevEntry) : Bits14 → RevEntry :=
  fun d => if d = c then e else rev d

/-- `buildRev(FWD)` (R36): every entry starts `Invalid`, then `REV[FWD[s]] <- Valid(s)` "in ascending s
order", so that of two symbols with one codeword the later wins. -/
def buildRev (fwd : Vector Bits14 256) : Bits14 → RevEntry :=
  fwd.toList.zipIdx.foldl (fun rev (c, s) => writeRev rev c (.valid (BitVec.ofNat 8 s))) fun _ => .invalid

/-- An entry as the ROM stores it (30_encoding.md R68): bit 8 is the valid bit, bits 7..0 the symbol;
`Invalid` is nine zeros. -/
def revEntryBits : RevEntry → BitVec 9
  | .valid s => 1#1 ++ s
  | .invalid => 0b0_0000_0000#9

/-- Reading a stored entry (R68): "Only the valid bit decides validity". -/
def revEntryOfBits (b : BitVec 9) : RevEntry :=
  if b.getLsbD 8 then .valid (b.extractLsb' 0 8) else .invalid

/-- The reverse ROM: 16384 entries of nine bits, a function of the forward table (R21, R68). -/
def revRom (fwd : Vector Bits14 256) (c : Bits14) : BitVec 9 := revEntryBits (buildRev fwd c)

/-- `RomRead(REV, c)`: defined for every 14-bit `c`, with no error case (R12, R35). -/
def romReadRev (fwd : Vector Bits14 256) (c : Bits14) : RevEntry := revEntryOfBits (revRom fwd c)

/-- No value of the list occurs twice, nor is in the set `seen`, whose members are its one-bits. -/
def distinctFrom (seen : Nat) : List Bits14 → Bool
  | []      => true
  | c :: cs => !seen.testBit c.toNat && distinctFrom (seen ||| 1 <<< c.toNat) cs

/-- R37: a configuration is admitted only if `FWD` is injective. -/
def admitted (cfg : Config) : Bool := distinctFrom 0 cfg.fwd.toList

/-- Symbols 0x00 to 0x0F of `FWD_EFM` (R39). -/
def fwdEfmRow0 : List Bits14 :=
  [0x1220, 0x2100, 0x2420, 0x2220, 0x1100, 0x0110, 0x0420, 0x0900,
   0x1240, 0x2040, 0x2440, 0x2240, 0x1040, 0x0040, 0x0440, 0x0840]

/-- Symbols 0x10 to 0x1F of `FWD_EFM` (R39). -/
def fwdEfmRow1 : List Bits14 :=
  [0x2020, 0x2080, 0x2480, 0x0820, 0x1080, 0x0080, 0x0480, 0x0880,
   0x1210, 0x2010, 0x2410, 0x2210, 0x1010, 0x0210, 0x0410, 0x0810]

/-- Symbols 0x20 to 0x2F of `FWD_EFM` (R39). -/
def fwdEfmRow2 : List Bits14 :=
  [0x0020, 0x2108, 0x0220, 0x0920, 0x1108, 0x0108, 0x1020, 0x0908,
   0x1248, 0x2048, 0x2448, 0x2248, 0x1048, 0x0048, 0x0448, 0x0848]

/-- Symbols 0x30 to 0x3F of `FWD_EFM` (R39). -/
def fwdEfmRow3 : List Bits14 :=
  [0x0100, 0x2088, 0x2488, 0x2110, 0x1088, 0x0088, 0x0488, 0x0888,
   0x1208, 0x2008, 0x2408, 0x2208, 0x1008, 0x0208, 0x0408, 0x0808]

/-- Symbols 0x40 to 0x4F of `FWD_EFM` (R39). -/
def fwdEfmRow4 : List Bits14 :=
  [0x1224, 0x2124, 0x2424, 0x2224, 0x1124, 0x0024, 0x0424, 0x0924,
   0x1244, 0x2044, 0x2444, 0x2244, 0x1044, 0x0044, 0x0444, 0x0844]

/-- Symbols 0x50 to 0x5F of `FWD_EFM` (R39). -/
def fwdEfmRow5 : List Bits14 :=
  [0x2024, 0x2084, 0x2484, 0x0824, 0x1084, 0x0084, 0x0484, 0x0884,
   0x1204, 0x2004, 0x2404, 0x2204, 0x1004, 0x0204, 0x0404, 0x0804]

/-- Symbols 0x60 to 0x6F of `FWD_EFM` (R39). -/
def fwdEfmRow6 : List Bits14 :=
  [0x1222, 0x2122, 0x2422, 0x2222, 0x1122, 0x0022, 0x1024, 0x0922,
   0x1242, 0x2042, 0x2442, 0x2242, 0x1042, 0x0042, 0x0442, 0x0842]

/-- Symbols 0x70 to 0x7F of `FWD_EFM` (R39). -/
def fwdEfmRow7 : List Bits14 :=
  [0x2022, 0x2082, 0x2482, 0x0822, 0x1082, 0x0082, 0x0482, 0x0882,
   0x1202, 0x0248, 0x2402, 0x2202, 0x1002, 0x0202, 0x0402, 0x0802]

/-- Symbols 0x80 to 0x8F of `FWD_EFM` (R39). -/
def fwdEfmRow8 : List Bits14 :=
  [0x1221, 0x2121, 0x2421, 0x2221, 0x1121, 0x0021, 0x0421, 0x0921,
   0x1241, 0x2041, 0x2441, 0x2241, 0x1041, 0x0041, 0x0441, 0x0841]

/-- Symbols 0x90 to 0x9F of `FWD_EFM` (R39). -/
def fwdEfmRow9 : List Bits14 :=
  [0x2021, 0x2081, 0x2481, 0x0821, 0x1081, 0x0081, 0x0481, 0x0881,
   0x1201, 0x2090, 0x2401, 0x2201, 0x1090, 0x0201, 0x0401, 0x0890]

/-- Symbols 0xA0 to 0xAF of `FWD_EFM` (R39). -/
def fwdEfmRowA : List Bits14 :=
  [0x0221, 0x2109, 0x1110, 0x0121, 0x1109, 0x0109, 0x1021, 0x0909,
   0x1249, 0x2049, 0x2449, 0x2249, 0x1049, 0x0049, 0x0449, 0x0849]

/-- Symbols 0xB0 to 0xBF of `FWD_EFM` (R39). -/
def fwdEfmRowB : List Bits14 :=
  [0x0120, 0x2089, 0x2489, 0x0910, 0x1089, 0x0089, 0x0489, 0x0889,
   0x1209, 0x2009, 0x2409, 0x2209, 0x1009, 0x0209, 0x0409, 0x0809]

/-- Symbols 0xC0 to 0xCF of `FWD_EFM` (R39). -/
def fwdEfmRowC : List Bits14 :=
  [0x1120, 0x2111, 0x2490, 0x0224, 0x1111, 0x0111, 0x0490, 0x0911,
   0x0241, 0x2101, 0x0244, 0x0240, 0x1101, 0x0101, 0x0090, 0x0901]

/-- Symbols 0xD0 to 0xDF of `FWD_EFM` (R39). -/
def fwdEfmRowD : List Bits14 :=
  [0x0124, 0x2091, 0x2491, 0x2120, 0x1091, 0x0091, 0x0491, 0x0891,
   0x1211, 0x2011, 0x2411, 0x2211, 0x1011, 0x0211, 0x0411, 0x0811]

/-- Symbols 0xE0 to 0xEF of `FWD_EFM` (R39). -/
def fwdEfmRowE : List Bits14 :=
  [0x1102, 0x0102, 0x2112, 0x0902, 0x1112, 0x0112, 0x1022, 0x0912,
   0x2102, 0x2104, 0x0249, 0x0242, 0x1104, 0x0104, 0x0422, 0x0904]

/-- Symbols 0xF0 to 0xFF of `FWD_EFM` (R39). -/
def fwdEfmRowF : List Bits14 :=
  [0x0122, 0x2092, 0x2492, 0x0222, 0x1092, 0x0092, 0x0492, 0x0892,
   0x1212, 0x2012, 0x2412, 0x2212, 0x1012, 0x0212, 0x0412, 0x0812]

/-- The 256 codewords of `FWD_EFM`, symbol 0x00 first (R39, general knowledge: log 2). -/
def fwdEfmList : List Bits14 :=
  fwdEfmRow0 ++ (fwdEfmRow1 ++ (fwdEfmRow2 ++ (fwdEfmRow3 ++ (
   fwdEfmRow4 ++ (fwdEfmRow5 ++ (fwdEfmRow6 ++ (fwdEfmRow7 ++ (
   fwdEfmRow8 ++ (fwdEfmRow9 ++ (fwdEfmRowA ++ (fwdEfmRowB ++ (
   fwdEfmRowC ++ (fwdEfmRowD ++ (fwdEfmRowE ++ (fwdEfmRowF)))))))))))))))

/-- `FWD_EFM` (R39) as a table. -/
def fwdEfm : Vector Bits14 256 := ⟨⟨fwdEfmList⟩, by simp only [fwdEfmList, List.size_toArray, List.length_append]; rfl⟩

/-- The value of `LEN_MAX` in the model's reset state (log 3): the longest byte slice of the source's
language on a 64-bit machine. R8 leaves the parameter open; no statement rests on this number. -/
def lenMaxReset : Nat := 2 ^ 63 - 1

/-- The configuration of the model's reset state (log 2, log 3). -/
def configReset : Config := ⟨fwdEfm, lenMaxReset⟩

end Sys2Proof.Machine
end

