-- ==== Sys2Proof/Machine/State.lean ====
section
/-! DEFINITION. The machine's state (10_state.md), as plain data; its responses (30_encoding.md R61,
R62); the reasons a step can stop; and the state right after reset (R30, R119). -/

namespace Sys2Proof.Machine

/-- `STATUS` (R62). `0b11` is reserved and never produced, so it has no constructor (I9). -/
inductive Status where
  | ok
  | invalidLength
  | invalidCodeword
deriving DecidableEq, Repr

/-- A response `(STATUS, payload)` (R61). -/
structure Response where
  status  : Status
  payload : List Byte
deriving DecidableEq, Repr

/-- The command slot (R25): no command in progress, or exactly one accepted command whose response has
not yet been delivered. -/
inductive Slot where
  | idle
  | busy (cmd : Instr)
deriving DecidableEq, Repr

/-- The state of one codec with the commands presented to it and the responses it has delivered. -/
structure State where
  /-- The configuration (R7, R8, R21): the FWD ROM, from which REV is a function, and `LEN_MAX`. Held
  here as data so that a statement holds for every one; nothing writes it (log 1). -/
  cfg         : Config
  /-- R25. -/
  slot        : Slot
  /-- R117: the tables are present; until they are, no command is accepted (log 15). -/
  tablesReady : Bool
  /-- R22 to R24: dead between commands, never read (R29; log 4, log 5). -/
  scratch     : Scratch
  /-- R125: for each requester, its presented and not yet accepted commands, oldest first, each with
  the bytes it was presented with (log 6, log 23). -/
  ports       : List (List Frame)
  /-- R25, R131: the (command, response) pairs in delivery order (log 17). -/
  log         : List (Instr × Response)
  /-- The MODEL's own counter: the argument of the next free value (log 5, log 6). -/
  freeCount   : Nat
deriving DecidableEq, Repr

/-- Why the machine stops. The spec uses no fault (R14): its two errors are responses. -/
inductive Fault where
  /-- Stuck (R8, R14, R97, D10, I10): a buffer command longer than `LEN_MAX` has no step. Raised by `acceptFrom`,
  `execEncBuf` and `execDecBuf`. Safe: the model makes no claim where the spec has no step (log 9). -/
  | noStepOverLenMax
deriving DecidableEq, Repr

/-- Why the machine refuses. -/
inductive Refusal where
  /-- An instruction without a meaning yet; no arm of `exec` answers it. Safe. -/
  | notModelled (mnemonic : String)
  /-- R14, R37: the configuration's `FWD` is not injective. Raised by `guardConfig`. Safe: the spec makes
  no claim about such a codec (log 10). -/
  | tableNotInjective
  /-- The presented command is no command of R58. Raised by `acceptFrom`. Safe: the spec says that it
  cannot be written (log 11). -/
  | malformedCommand (reason : DecodeError)
deriving DecidableEq, Repr

/-- The transient values in the reset state: R30 leaves them unspecified (log 4). -/
def scratchReset : Scratch := ⟨0, Vector.replicate 8 false, 0, []⟩

/-- The machine right after reset (R30, R119): the tables present, the slot idle, no response pending,
no command presented. The configuration is that of log 2 and log 3. -/
def State.reset : State where
  cfg         := configReset
  slot        := .idle
  tablesReady := true
  scratch     := scratchReset
  ports       := []
  log         := []
  freeCount   := 0

end Sys2Proof.Machine
end

