-- ==== Sys2Proof/Machine/Flags.lean ====
section
/-! DEFINITION. The status of a response (30_encoding.md R62, R63), which is all the codec has for flags
(10_state.md R19), and the lane valid bits with the invalid-codeword detector (R23, 42_block_decode.md
R82). -/

namespace Sys2Proof.Machine

/-- The encoding of `STATUS` (R62). -/
def statusBits : Status → BitVec 2
  | .ok              => 0b00
  | .invalidLength   => 0b01
  | .invalidCodeword => 0b10

/-- A received `STATUS`: `0b11` is impossible (R62, R70). -/
def statusOfBits (b : BitVec 2) : Option Status :=
  if b = 0b00 then some .ok
  else if b = 0b01 then some .invalidLength
  else if b = 0b10 then some .invalidCodeword
  else none

/-- `V[i] = (REV[c_i] != Invalid)` (R23). -/
def entryValid : RevEntry → Bool
  | .valid _ => true
  | .invalid => false

/-- R81: `sym_i` is the entry's symbol, or 0x00 where the entry is `Invalid`. -/
def entrySym : RevEntry → Byte
  | .valid s => s
  | .invalid => 0x00

/-- R82: `bad`, the OR of `not V[i]` over the lanes. -/
def invalidCodewordDetector (v : Vector Bool 8) : Bool := (List.finRange 8).any fun i => !v[i]

/-- The payload of an error response (R63, R83): eight zero bytes on the DEC_BLK bus, none for a buffer
command. ENC_BLK has no error (R78), and its line is never used. -/
def errorPayload : Instr → List Byte
  | .encBlk _ => []
  | .decBlk _ => List.replicate 8 0x00
  | .encBuf _ => []
  | .decBuf _ => []

end Sys2Proof.Machine
end

