-- ==== Sys2Proof/Machine/Operands.lean ====
section
/-! DEFINITION. Operand assembly (30_encoding.md R67): the window's layout (R64), its serialization
(R65, 20_memory.md R41), the flat buses (R59), the 64+64 split (R66), and the chunks of a buffer
(00_scope.md R16). -/

namespace Sys2Proof.Machine

/-- The offset of lane i's codeword "from the low end" of the window: `(7 - i) * 14` (R64). -/
def laneOffset (i : Fin 8) : Nat := (7 - i.val) * 14

/-- R64: the OR of `zext_112(c_i) << ((7 - i) * 14)` over the lanes; lane 0 is in the high bits. -/
def packWindow (cw : Vector Bits14 8) : Bits112 :=
  (List.finRange 8).foldl (fun (w : Bits112) (i : Fin 8) => w ||| (cw[i].setWidth 112 <<< laneOffset i)) 0

/-- R64: `c_i = (W >> ((7 - i) * 14)) & 0x3FFF`, with `CW_MASK = 0x3FFF` (R6). -/
def windowField (w : Bits112) (i : Fin 8) : Bits14 := ((w >>> laneOffset i) &&& 0x3FFF).setWidth 14

/-- The eight codeword fields of a window (R64). -/
def windowFields (w : Bits112) : Vector Bits14 8 := Vector.ofFn (windowField w)

/-- R65, R41: byte k is `W[111-8k : 104-8k]`, most significant byte first, no padding. -/
def serialize (w : Bits112) : Vector Byte 14 := Vector.ofFn fun k => w.extractLsb' (104 - 8 * k.val) 8

/-- R65: `W` is the OR of `zext_112(b[k]) << (8 * (13 - k))`. -/
def parse (b : Vector Byte 14) : Bits112 :=
  (List.finRange 14).foldl (fun (w : Bits112) (k : Fin 14) =>
    w ||| (b[k].setWidth 112 <<< (8 * (13 - k.val)))) 0

/-- Chunk j of a buffer of `n`-byte chunks (R16): its byte i is `data[n*j + i]`. The sequencer reads a
chunk only where all its bytes exist (log 20). -/
def chunk (n j : Nat) (data : List Byte) : Vector Byte n := Vector.ofFn fun i => data.getD (n * j + i.val) 0

/-- R59, ENC_BLK input: lane i is `SYM_IN[63-8i : 56-8i]`. -/
def symOfBus (b : Bits64) : Vector Byte 8 := Vector.ofFn fun i => b.extractLsb' (56 - 8 * i.val) 8

/-- R59, DEC_BLK output: lane i is `SYM_OUT[63-8i : 56-8i]`. -/
def busOfSym (s : Vector Byte 8) : Bits64 :=
  (List.finRange 8).foldl (fun (w : Bits64) (i : Fin 8) => w ||| (s[i].setWidth 64 <<< (8 * (7 - i.val)))) 0

/-- R59, DEC_BLK input: byte k is `CW_IN[111-8k : 104-8k]`. -/
def blkOfBus (b : Bits112) : Vector Byte 14 := serialize b

/-- R59, ENC_BLK output: byte k is `CW_OUT[111-8k : 104-8k]`. -/
def busOfBlk (b : Vector Byte 14) : Bits112 := parse b

/-- R66: the high word `H = W >> 64` of the 64+64 split, a notation for windows. -/
def windowHigh (w : Bits112) : Nat := w.toNat >>> 64

/-- R66: the low word `L = W & (2^64 - 1)`. -/
def windowLow (w : Bits112) : Nat := w.toNat % 2 ^ 64

end Sys2Proof.Machine
end

