-- ==== Sys2Proof/Machine/Ops.lean ====
section
/-! DEFINITION. The operations the commands share: ending a command with a response or an error (R13,
R100), the guards of the configuration and of `LEN_MAX` (R37, R97), accepting a command (R25, R117, R125),
and what the host does to the machine (R119, R120, R125). -/

namespace Sys2Proof.Machine

/-- What an instruction or a step answers. -/
abbrev Result := Host.Outcome State Fault Refusal

/-! ### Ending a command -/

/-- `return p` (R13): status `OK` and payload `p`. -/
def returnOk (p : List Byte) : Response := ⟨.ok, p⟩

/-- `raise` (R13, R100): the status that names the error and the error payload of R63. This is all that
taking an error does: "No trap is taken, no state is saved and no handler runs" (R100, R106), and there
is no return from one (R107). -/
def raiseError (st : Status) (cmd : Instr) : Response := ⟨st, errorPayload cmd⟩

/-- Delivering a command's response: the pair joins the observation, the slot is idle again (R25, R99),
and the transient values are dead (R29), left at a free value (log 5). -/
def deliver (s : State) (cmd : Instr) (r : Response) : State :=
  { s with
    slot      := .idle
    log       := s.log ++ [(cmd, r)]
    scratch   := Config.freeScratch s.freeCount
    freeCount := s.freeCount + 1 }

/-- A configuration whose `FWD` is not injective is refused (R14, R37). -/
def guardConfig (s : State) (k : Result) : Result :=
  if admitted s.cfg then k else .refused .tableNotInjective

/-- A buffer of `n` bytes is longer than `LEN_MAX` (R8). -/
def tooLong (cfg : Config) (n : Nat) : Bool := decide (cfg.lenMax < n)

/-- A buffer command longer than `LEN_MAX` has no step (R97). -/
def guardLength (s : State) (n : Nat) (k : Result) : Result :=
  if tooLong s.cfg n then .fault .noStepOverLenMax else k

/-- Running a command to its end (R99): its response is delivered and the slot returns to idle. -/
def complete (s : State) (cmd : Instr) (r : Response) : Result := .next (deliver s cmd r)

/-! ### Accepting a command -/

/-- The command is longer than the configuration accepts (R8, R57). -/
def commandTooLong (cfg : Config) : Instr → Bool
  | .encBlk _    => false
  | .decBlk _    => false
  | .encBuf data => tooLong cfg data.length
  | .decBuf data => tooLong cfg data.length

/-- The presented commands that requester `p` still holds. -/
def portQueue (s : State) (p : Nat) : List Frame := s.ports.getD p []

/-- The requesters that hold a command (R125). -/
def waiting (s : State) : List Nat := (List.range s.ports.length).filter fun p => !(portQueue s p).isEmpty

/-- The requester whose command is accepted next: the only one that waits, or, of several, one in an
order the spec leaves open (R53): a free choice (log 6). -/
def chooseRequester (s : State) : Option Nat :=
  match waiting s with
  | []          => none
  | [p]         => some p
  | p :: q :: r => some ((p :: q :: r).getD (Config.freeChoice s.freeCount % (p :: q :: r).length) p)

/-- The state in which requester `p`'s first command `cmd` has been accepted (R25): the slot holds it, its
payload as captured (R126), and the rest of the queue is held. -/
def accepted (s : State) (p : Nat) (cmd : Instr) : State :=
  { s with
    slot      := .busy cmd
    ports     := s.ports.set p (portQueue s p).tail
    freeCount := s.freeCount + 1 }

/-- Accepting the first command that requester `p` holds: decoded (R74), and within `LEN_MAX` (R8, R97). -/
def acceptFrom (s : State) (p : Nat) : Result :=
  match portQueue s p with
  | []     => .next s
  | f :: _ =>
    match decode f with
    | .error e => .refused (.malformedCommand e)
    | .ok cmd  => if commandTooLong s.cfg cmd then .fault .noStepOverLenMax else .next (accepted s p cmd)

/-- What an idle codec does: it waits for a command (R121, log 8), accepts none before its tables are
present (R117, R122), and else accepts one. -/
def acceptNext (s : State) : Result :=
  guardConfig s
    (if s.tablesReady then
      match chooseRequester s with
      | none   => .next s
      | some p => acceptFrom s p
    else .next s)

/-- The state in which `cmd` is the accepted command, ready to run (log 13). -/
def loadSlot (s : State) (cmd : Instr) : State := { s with slot := .busy cmd, tablesReady := true }

/-! ### What the host does -/

/-- The queues with one for each requester below `n`: those that are missing are empty (log 6). -/
def padPorts (n : Nat) (ports : List (List Frame)) : List (List Frame) :=
  ports ++ List.replicate (n - ports.length) []

/-- Requester `p` presents a command, which is held at the end of that requester's queue until it is
accepted (R125, R72; log 6). That its bytes are fixed here, and that no operation of the host alters or
withdraws a held command before its payload is captured at acceptance (R126), is the model's choice
(log 23). -/
def present (s : State) (p : Nat) (f : Frame) : State :=
  { s with ports := (padPorts (p + 1) s.ports).set p (portQueue s p ++ [f]) }

/-- Reset arrives (R119, R120): a command in progress is abandoned with no response, the slot is idle,
the tables do not change (R118), the transient values are unspecified (R30). An implementation that loads
its tables into RAM has yet to load them (R117, log 15); presented commands stay held (log 14). -/
def hostReset (ramTables : Bool) (s : State) : State :=
  { s with
    slot        := .idle
    tablesReady := !ramTables
    scratch     := Config.freeScratch s.freeCount
    freeCount   := s.freeCount + 1 }

/-- An implementation that loads its tables has finished (R117, R123). -/
def tablesLoaded (s : State) : State := { s with tablesReady := true }

/-- The run has ended (R131): no command is held and the slot is idle. That this is also the end where the
last command was abandoned by reset and has no response, of which R131 says nothing, is the model's choice
(log 22). -/
def runEnded (s : State) : Bool := s.slot == .idle && (waiting s).isEmpty

end Sys2Proof.Machine
end

