-- ==== Sys2Proof/Machine/BlockDecode.lean ====
section
/-! DEFINITION. The block decoder (42_block_decode.md) and the meaning of DEC_BLK. -/

namespace Sys2Proof.Machine

/-- R81: eight reverse-table reads, `e_i = RomRead(REV, c_i)`. -/
def laneEntries (fwd : Vector Bits14 256) (w : Bits112) : Vector RevEntry 8 :=
  (windowFields w).map (romReadRev fwd)

/-- The decoder's datapath (R81): parse, unpack, look up, detect (R82). `none` is `bad`. -/
def decodeBlock (fwd : Vector Bits14 256) (blk : Vector Byte 14) : Option (Vector Byte 8) :=
  let e := laneEntries fwd (parse blk)
  if invalidCodewordDetector (e.map entryValid) then none else some (e.map entrySym)

/-- The response to DEC_BLK (R81): InvalidCodeword with eight zero bytes when any lane is invalid (R82,
R83), else `OK` with the eight symbols. -/
def decBlkResponse (cfg : Config) (blk : Vector Byte 14) : Response :=
  match decodeBlock cfg.fwd blk with
  | none     => raiseError .invalidCodeword (.decBlk blk)
  | some sym => returnOk sym.toList

/-- DEC_BLK (R81). -/
def execDecBlk (blk : Vector Byte 14) (s : State) : Result :=
  guardConfig s (complete s (.decBlk blk) (decBlkResponse s.cfg blk))

end Sys2Proof.Machine
end

