-- ==== Sys2Proof/Machine/BlockEncode.lean ====
section
/-! DEFINITION. The block encoder (41_block_encode.md) and the meaning of ENC_BLK. -/

namespace Sys2Proof.Machine

/-- R75: eight forward-table reads, one per lane. -/
def laneCodewords (fwd : Vector Bits14 256) (sym : Vector Byte 8) : Vector Bits14 8 :=
  Vector.ofFn fun i => romReadFwd fwd sym[i]

/-- The window of R75: each lane's codeword packed at its offset. -/
def encodeWindow (fwd : Vector Bits14 256) (sym : Vector Byte 8) : Bits112 :=
  packWindow (laneCodewords fwd sym)

/-- The encoder's datapath (R75): look up, pack, serialize. -/
def encodeBlock (fwd : Vector Bits14 256) (sym : Vector Byte 8) : Vector Byte 14 :=
  serialize (encodeWindow fwd sym)

/-- The response to ENC_BLK (R75): `OK` with 14 bytes, always (R78). -/
def encBlkResponse (cfg : Config) (sym : Vector Byte 8) : Response :=
  returnOk (encodeBlock cfg.fwd sym).toList

/-- ENC_BLK (R75). -/
def execEncBlk (sym : Vector Byte 8) (s : State) : Result :=
  guardConfig s (complete s (.encBlk sym) (encBlkResponse s.cfg sym))

end Sys2Proof.Machine
end

