-- ==== Sys2Proof/Machine/Buffer.lean ====
section
/-! DEFINITION. The buffer sequencer (43_buffer_ops.md), the meanings of ENC_BUF and DEC_BUF, and the
response function of R99. -/

namespace Sys2Proof.Machine

/-- The loop of R89 over the chunk indices `js`, from the accumulator `acc`. -/
def encChunks (fwd : Vector Bits14 256) (data : List Byte) : List Nat → List Byte → List Byte
  | [],      acc => acc
  | j :: js, acc => encChunks fwd data js (acc ++ (encodeBlock fwd (chunk 8 j data)).toList)

/-- The response to ENC_BUF (R89): the length check comes before any processing (R90). -/
def encBufResponse (cfg : Config) (data : List Byte) : Response :=
  if data.length % 8 ≠ 0 then raiseError .invalidLength (.encBuf data)
  else returnOk (encChunks cfg.fwd data (List.range (data.length / 8)) [])

/-- ENC_BUF (R89). -/
def execEncBuf (data : List Byte) (s : State) : Result :=
  guardConfig s (guardLength s data.length (complete s (.encBuf data) (encBufResponse s.cfg data)))

/-- The loop of R93 over the chunk indices `js`, from the accumulator `acc`; `none` when a chunk raises
InvalidCodeword, and the accumulator is discarded (R95). -/
def decChunks (fwd : Vector Bits14 256) (data : List Byte) : List Nat → List Byte → Option (List Byte)
  | [],      acc => some acc
  | j :: js, acc =>
    match decodeBlock fwd (chunk 14 j data) with
    | none     => none
    | some sym => decChunks fwd data js (acc ++ sym.toList)

/-- The response to DEC_BUF (R93): InvalidLength first (R94, R104), then all or nothing (R95). -/
def decBufResponse (cfg : Config) (data : List Byte) : Response :=
  if data.length % 14 ≠ 0 then raiseError .invalidLength (.decBuf data)
  else
    match decChunks cfg.fwd data (List.range (data.length / 14)) [] with
    | none     => raiseError .invalidCodeword (.decBuf data)
    | some acc => returnOk acc

/-- DEC_BUF (R93). -/
def execDecBuf (data : List Byte) (s : State) : Result :=
  guardConfig s (guardLength s data.length (complete s (.decBuf data) (decBufResponse s.cfg data)))

/-- The response function `resp(cfg, cmd)` (R99), for a command within `LEN_MAX`. -/
def response (cfg : Config) : Instr → Response
  | .encBlk sym  => encBlkResponse cfg sym
  | .decBlk blk  => decBlkResponse cfg blk
  | .encBuf data => encBufResponse cfg data
  | .decBuf data => decBufResponse cfg data

end Sys2Proof.Machine
end

