-- ==== Sys2Proof/Machine/Dispatch.lean ====
section
/-! DEFINITION. The dispatch (30_encoding.md R74): one arm per command. -/

namespace Sys2Proof.Machine

def exec (i : Instr) (s : State) : Host.Outcome State Fault Refusal :=
  match i with
  | .encBlk sym => Sys2Proof.Machine.execEncBlk sym s
  | .decBlk blk => Sys2Proof.Machine.execDecBlk blk s
  | .encBuf data => Sys2Proof.Machine.execEncBuf data s
  | .decBuf data => Sys2Proof.Machine.execDecBuf data s

end Sys2Proof.Machine
end

