-- ==== Sys2Proof/Machine/Step.lean ====
section
/-! DEFINITION. One step (43_buffer_ops.md R99, 10_state.md R25): an idle codec accepts a command, a busy
one delivers its command's response; and where a table word is put so that the next step runs it. -/

namespace Sys2Proof.Machine

/-- R25, R99: from `idle`, accept; from `busy(cmd)`, run `cmd` and return to `idle` (log 7). -/
def step (s : State) : Host.Outcome State Fault Refusal :=
  match s.slot with
  | .idle     => acceptNext s
  | .busy cmd => exec cmd s

/-- The codec fetches no instructions (R18): a command runs once it is in the command slot. The word's
command, decoded, is put there, with the tables present (log 13). -/
def State.withFetchWord (s : State) (nbits w : Nat) : State :=
  match decodeTableWord nbits w with
  | some cmd => loadSlot s cmd
  | none     => s

end Sys2Proof.Machine
end

