-- ==== Sys2Proof/Machine/Instances.lean ====
section
/-! DEFINITION. Several codecs side by side (10_state.md R32, R33, 60_exceptions.md R114): each has its own
slot, they share no mutable state, and an instance takes its steps alone (log 21). -/

namespace Sys2Proof.Machine

/-- Instance `k` takes one step; a number with no instance changes nothing (R32). -/
def stepInstance (k : Nat) (m : List State) : Host.Outcome (List State) Fault Refusal :=
  match m[k]? with
  | none   => .next m
  | some s =>
    match step s with
    | .next t    => .next (m.set k t)
    | .fault r   => .fault r
    | .refused r => .refused r

end Sys2Proof.Machine
end

