-- ==== Sys2Proof/Safety.lean ====
section
/-! DEFINITION. The terms the statements use: an injective table (R37), what a delivered response changes
and leaves alone (R25, R100, R105), and the states of a sound run. -/

namespace Sys2Proof.Machine

/-- R37: `forall s t, FWD[s] = FWD[t] -> s = t`. -/
def InjectiveFwd (cfg : Config) : Prop := ∀ s t : Byte, romReadFwd cfg.fwd s = romReadFwd cfg.fwd t → s = t

/-- State `t` is `s` after the response `r` to `cmd` was delivered: the pair ends the observation, the slot
is idle, and the tables, `LEN_MAX` and the held commands are as before. The transient values and the
model's counter are left free. -/
def Delivers (s : State) (cmd : Instr) (r : Response) (t : State) : Prop :=
  t.log = s.log ++ [(cmd, r)] ∧ t.slot = .idle ∧
  t.cfg = s.cfg ∧ t.tablesReady = s.tablesReady ∧ t.ports = s.ports

/-- The states of a sound run: the configuration is admitted (R37); a command in the slot is within
`LEN_MAX` and was accepted with the tables present (R8, R117); and every response delivered is the pure
function of its command and the configuration (R25). -/
def State.Inv (s : State) : Prop :=
  InjectiveFwd s.cfg ∧
  (∀ cmd, s.slot = .busy cmd → cmd.wellFormed s.cfg = true ∧ s.tablesReady = true) ∧
  ∀ e ∈ s.log, e.1.wellFormed s.cfg = true ∧ e.2 = response s.cfg e.1

end Sys2Proof.Machine
end

