-- ==== Sys2Proof/Certificates/Slice0/Obligations.lean ====
section
/-! DEFINITION. The statements for the provers, from the numbered rules of spec/. -/

open Sys2Proof Sys2Proof.Machine

/-! ### Reset and the interface -/

/-- The state `State.reset` (70_reset_and_hazards.md section 1): the slot idle, the tables present (log 15), REV
built from FWD, no response pending. The rest is the model's: that no command is held is log 6 (a reset by the
host keeps the held commands, log 14: `ResetAndBootOrder`); that it waits by a step to the same state is log 8,
and that the step is not refused rests on the admission of `FWD_EFM`, the table it holds (PRESUMED, log 2).
The values of the configuration (log 2, log 3) are not stated. -/
def Obligations.ResetWaitsIdle : Prop :=
  State.reset.slot = .idle ∧ State.reset.tablesReady = true ∧ State.reset.log = [] ∧
  (∀ p, portQueue State.reset p = []) ∧
  (∀ c, romReadRev State.reset.cfg.fwd c = buildRev State.reset.cfg.fwd c) ∧
  step State.reset = .next State.reset

/-- R120: "If reset arrives while the slot is `busy(cmd)`, the command is abandoned. No response is delivered
for it, and the slot is `idle` after reset"; the configuration is kept, so the same command reissued has
the same response. -/
def Obligations.ResetAbandonsBusyCommand : Prop :=
  ∀ (s : State) (ramTables : Bool) (cmd : Instr), s.slot = .busy cmd →
    (hostReset ramTables s).slot = .idle ∧ (hostReset ramTables s).log = s.log ∧
    (hostReset ramTables s).cfg = s.cfg ∧
    response (hostReset ramTables s).cfg cmd = response s.cfg cmd

/-- R121: a codec with nothing presented to it stays idle until the first command. -/
def Obligations.IdleCodecWaits : Prop :=
  ∀ s : State, InjectiveFwd s.cfg → s.slot = .idle → (∀ p, portQueue s p = []) → step s = .next s

/-- R119, R117, R123, for every slot: after a reset the slot is idle, no response has been delivered for what
was in it, and the tables are present where they are a ROM and absent where they are loaded into RAM, until
the end of the load, which changes nothing else (log 15); presented commands stay held (log 14). Before the
load the codec accepts nothing (log 8); after the boot order of R123 it accepts a held command. -/
def Obligations.ResetAndBootOrder : Prop :=
  ∀ s : State,
    (∀ ramTables, (hostReset ramTables s).slot = .idle ∧ (hostReset ramTables s).log = s.log ∧
      (hostReset ramTables s).cfg = s.cfg ∧ (hostReset ramTables s).ports = s.ports) ∧
    (hostReset false s).tablesReady = true ∧ (hostReset true s).tablesReady = false ∧
    (tablesLoaded s).tablesReady = true ∧ (tablesLoaded s).slot = s.slot ∧ (tablesLoaded s).log = s.log ∧
    (tablesLoaded s).cfg = s.cfg ∧ (tablesLoaded s).ports = s.ports ∧
    (InjectiveFwd s.cfg → step (hostReset true s) = .next (hostReset true s)) ∧
    (InjectiveFwd s.cfg → (∃ p, portQueue s p ≠ []) →
      (∀ p f, (portQueue s p).head? = some f → ∃ cmd, decode f = .ok cmd ∧ cmd.wellFormed s.cfg = true) →
      ∀ u : State, u = hostReset false s ∨ u = tablesLoaded (hostReset true s) →
        ∃ p f cmd t, (portQueue s p).head? = some f ∧ decode f = .ok cmd ∧
          step u = .next t ∧ t.slot = .busy cmd)

/-- R117, R122: "Until then the codec has no step that accepts a command": before its tables are present an
idle codec keeps every command held, and none is an error. -/
def Obligations.NoAcceptBeforeTables : Prop :=
  ∀ s : State, InjectiveFwd s.cfg → s.slot = .idle → s.tablesReady = false → step s = .next s

/-- A step runs the command that was decoded and accepted. An idle codec whose next requester's first
presented command decodes to `cmd` accepts it, changing only the slot and that requester's queue; the step
after that is `exec cmd`; a busy codec's step is `exec` of its command; and so is the step after
`withFetchWord` (log 7, log 13). Wherever a requester holds a command, one that holds a command is chosen
(R53, R125; which one, of several, is free: log 6). -/
def Obligations.StepRunsDecodedCommand : Prop :=
  (∀ (s : State) (p : Nat), portQueue s p ≠ [] → ∃ q, chooseRequester s = some q ∧ portQueue s q ≠ []) ∧
  (∀ (s : State) (p : Nat) (f : Frame) (rest : List Frame) (cmd : Instr),
    InjectiveFwd s.cfg → s.slot = .idle → s.tablesReady = true → chooseRequester s = some p →
    portQueue s p = f :: rest → decode f = .ok cmd → cmd.wellFormed s.cfg = true →
    ∃ t, step s = .next t ∧ t.slot = .busy cmd ∧ portQueue t p = rest ∧
      (∀ q, q ≠ p → portQueue t q = portQueue s q) ∧
      t.cfg = s.cfg ∧ t.tablesReady = s.tablesReady ∧ t.log = s.log ∧ step t = exec cmd t) ∧
  (∀ (s : State) (cmd : Instr), s.slot = .busy cmd → step s = exec cmd s) ∧
  (∀ (s : State) (nbits w : Nat) (cmd : Instr), decodeTableWord nbits w = some cmd →
    step (s.withFetchWord nbits w) = exec cmd (s.withFetchWord nbits w))

/-- R125: "While the slot is `busy`, the codec accepts no other command. A command presented then is held":
in every state, idle or busy, a presented command joins the end of its requester's queue and changes nothing
else, and the step of a busy codec takes no command from any queue and returns the slot to idle. A queue for
each requester, in the order of presentation, is the model's form of holding (log 6). -/
def Obligations.BusyCodecHoldsCommands : Prop :=
  ∀ s : State,
    (∀ (p : Nat) (f : Frame),
      portQueue (present s p f) p = portQueue s p ++ [f] ∧
      (∀ q, q ≠ p → portQueue (present s p f) q = portQueue s q) ∧
      (present s p f).slot = s.slot ∧ (present s p f).tablesReady = s.tablesReady ∧
      (present s p f).log = s.log ∧ (present s p f).cfg = s.cfg) ∧
    (∀ (cmd : Instr) (t : State), s.slot = .busy cmd → step s = .next t → t.ports = s.ports ∧ t.slot = .idle)

/-- R125, "no command is lost or merged", over every step: the held commands are as before and the slot is
idle, or exactly one command left the head of one queue and is the one now in the slot; and the slot's command leaves it only
with its response delivered. R125 says only that a command is held, and not lost or merged; that it leaves from
the head of its requester's one first-in first-out queue is the model's choice (log 6). -/
def Obligations.NoCommandLostOrMerged : Prop :=
  ∀ s t : State, step s = .next t →
    ((t.ports = s.ports ∧ t.slot = .idle) ∨
      ∃ p f cmd, s.slot = .idle ∧ t.slot = .busy cmd ∧ decode f = .ok cmd ∧
        portQueue s p = f :: portQueue t p ∧ ∀ q, q ≠ p → portQueue t q = portQueue s q) ∧
    (∀ cmd, s.slot = .busy cmd → ∃ r, t.log = s.log ++ [(cmd, r)]) ∧
    (s.slot = .idle → t.log = s.log)

/-- R129: "Every accepted command that is within `LEN_MAX` and not abandoned by reset completes".
R129 says that the response comes after finitely many steps; that it is the one step after the acceptance is
the model's choice (log 7). -/
def Obligations.AcceptedCommandCompletes : Prop :=
  ∀ (s : State) (cmd : Instr), InjectiveFwd s.cfg → s.slot = .busy cmd → cmd.wellFormed s.cfg = true →
    ∃ t, step s = .next t ∧ Delivers s cmd (response s.cfg cmd) t

/-- 30_encoding.md R72 and 70_reset_and_hazards.md R131, for any list of commands one requester has issued:
run to its end, it leaves the list of (command, response) pairs in the same order, the slot idle and
nothing held. -/
def Obligations.ProgramRunsInOrder : Prop :=
  ∀ (s : State) (cmds : List Instr), InjectiveFwd s.cfg → s.slot = .idle → s.tablesReady = true →
    s.ports = [cmds.map encode] → (∀ cmd ∈ cmds, cmd.wellFormed s.cfg = true) →
    ∃ t, Sys2Proof.core.run (2 * cmds.length) s = .next t ∧
      t.log = s.log ++ cmds.map (fun cmd => (cmd, response s.cfg cmd)) ∧
      runEnded t = true ∧ t.cfg = s.cfg

/-- 20_memory.md R53, R49 and 70_reset_and_hazards.md R131, for any number of requesters with any lists of
commands: run to its end, the observation is an interleaving of the requesters' lists. With each command
tagged by its requester's number, the entries for a requester are its list, and there are no others; how they
interleave is free (log 6). The count of two steps a command is the model's (log 7). -/
def Obligations.SeveralRequestersAreServed : Prop :=
  ∀ (s : State) (queues : List (List Instr)), InjectiveFwd s.cfg → s.slot = .idle → s.tablesReady = true →
    s.ports = queues.map (fun q => q.map encode) → (∀ q ∈ queues, ∀ cmd ∈ q, cmd.wellFormed s.cfg = true) →
    ∃ (order : List (Nat × Instr)) (t : State),
      (∀ e ∈ order, e.1 < queues.length) ∧
      (∀ p q, queues[p]? = some q → (order.filter fun e => e.1 == p).map Prod.snd = q) ∧
      Sys2Proof.core.run (2 * queues.flatten.length) s = .next t ∧
      t.log = s.log ++ order.map (fun e => (e.2, response s.cfg e.2)) ∧
      runEnded t = true ∧ t.cfg = s.cfg

/-- R32: "No instance can observe another": a step of instance `k` leaves every other instance as it was, and
what instance `k` does is its own step alone; and it takes that step whenever its own step is answered, so no
other instance can block it. That several codecs are a list of states of which one steps at a time is the
model's reading (log 21). -/
def Obligations.InstancesAreIndependent : Prop :=
  (∀ (k : Nat) (m m' : List State), stepInstance k m = .next m' →
    m'.length = m.length ∧ (∀ j, j ≠ k → m'[j]? = m[j]?) ∧
    ∀ s, m[k]? = some s → ∃ t, step s = .next t ∧ m'[k]? = some t) ∧
  (∀ (k : Nat) (m : List State) (s t : State), m[k]? = some s → step s = .next t →
    ∃ m', stepInstance k m = .next m' ∧ m'[k]? = some t)

/-! ### Encoding -/

/-- R57, R58: each value of `OP` with its payload is its command, every payload byte in its place. -/
def Obligations.DecodeByOpField : Prop :=
  (∀ sym : Vector Byte 8, decode ⟨0b00, none, sym.toList⟩ = .ok (.encBlk sym)) ∧
  (∀ blk : Vector Byte 14, decode ⟨0b01, none, blk.toList⟩ = .ok (.decBlk blk)) ∧
  (∀ data : List Byte, decode ⟨0b10, some data.length, data⟩ = .ok (.encBuf data)) ∧
  (∀ data : List Byte, decode ⟨0b11, some data.length, data⟩ = .ok (.decBuf data))

/-- Words of the opcode table, written out: `OP` 0 to 3 with all operands zero. -/
def Obligations.TableWordsDecode : Prop :=
  decodeTableWord 8 0 = some (.encBlk (Vector.replicate 8 0)) ∧
  decodeTableWord 8 1 = some (.decBlk (Vector.replicate 14 0)) ∧
  decodeTableWord 8 2 = some (.encBuf []) ∧
  decodeTableWord 8 3 = some (.decBuf [])

/-- Decode and encode agree on every command, every operand at every value, and every presented command that
decodes is the one encoding of what it decodes to. -/
def Obligations.DecodeAndEncodeAgree : Prop :=
  (∀ cmd : Instr, decode (encode cmd) = .ok cmd) ∧
  (∀ (f : Frame) (cmd : Instr), decode f = .ok cmd → encode cmd = f)

/-- R58, R60: a presented command is refused exactly where it is none of R58: a block command with a `LEN` or
another payload length than `OP` fixes, a buffer command whose `LEN` is missing or is not its payload's
length; the payload's contents never matter. -/
def Obligations.DecodeRefusesExactlyMalformed : Prop :=
  ∀ f : Frame, (∃ e, decode f = .error e) ↔
    ((f.op = 0b00 ∧ (f.len ≠ none ∨ f.payload.length ≠ 8)) ∨
     (f.op = 0b01 ∧ (f.len ≠ none ∨ f.payload.length ≠ 14)) ∨
     ((f.op = 0b10 ∨ f.op = 0b11) ∧ f.len ≠ some f.payload.length))

/-- R62: the codes of `STATUS`; `0b11` is the code of no status. -/
def Obligations.StatusCodes : Prop :=
  statusBits .ok = 0b00 ∧ statusBits .invalidLength = 0b01 ∧ statusBits .invalidCodeword = 0b10 ∧
  (∀ st, statusBits st ≠ 0b11) ∧ (∀ st, statusOfBits (statusBits st) = some st) ∧ statusOfBits 0b11 = none

/-! ### The tables -/

/-- R36: building REV in ascending symbol order, "the later symbol wins": an entry is the last symbol whose
codeword is its address. For any `FWD`. -/
def Obligations.LaterSymbolWinsInRev : Prop :=
  ∀ (fwd : Vector Bits14 256) (c : Bits14) (e : Byte),
    romReadRev fwd c = .valid e ↔
      romReadFwd fwd e = c ∧ ∀ s : Byte, romReadFwd fwd s = c → s.toNat ≤ e.toNat

/-- 20_memory.md section 2, the table invariants (a) to (d) of an injective `FWD`. -/
def Obligations.RevInvertsInjectiveFwd : Prop :=
  ∀ cfg : Config, InjectiveFwd cfg →
    (∀ s : Byte, romReadRev cfg.fwd (romReadFwd cfg.fwd s) = .valid s) ∧
    (∀ c : Bits14, romReadRev cfg.fwd c = .invalid ↔ ∀ s : Byte, romReadFwd cfg.fwd s ≠ c) ∧
    (Finset.univ.filter fun c : Bits14 => romReadRev cfg.fwd c ≠ .invalid).card = 256 ∧
    (Finset.univ.filter fun c : Bits14 => romReadRev cfg.fwd c = .invalid).card = 16128 ∧
    (∀ (c : Bits14) (s : Byte), romReadRev cfg.fwd c = .valid s → romReadFwd cfg.fwd s = c)

/-- R68: "A REV entry is 9 bits wide": the valid bit above the symbol, an invalid entry nine zeros, and "Only
the valid bit decides validity". -/
def Obligations.RevEntryNineBits : Prop :=
  (∀ (fwd : Vector Bits14 256) (c : Bits14) (s : Byte),
    romReadRev fwd c = .valid s ↔ revRom fwd c = 1#1 ++ s) ∧
  (∀ (fwd : Vector Bits14 256) (c : Bits14), romReadRev fwd c = .invalid ↔ revRom fwd c = 0#9) ∧
  (∀ b : BitVec 9, revEntryOfBits b = .invalid ↔ b.getLsbD 8 = false)

/-- R37: "A configuration that fails this check is refused": where `FWD` is not injective every command and
every step is refused, whatever the state. -/
def Obligations.NonInjectiveTableRefused : Prop :=
  (∀ (cmd : Instr) (s : State), ¬ InjectiveFwd s.cfg → exec cmd s = .refused .tableNotInjective) ∧
  (∀ s : State, ¬ InjectiveFwd s.cfg → step s = .refused .tableNotInjective)

/-- R56, R118: no command, no step and nothing the host does changes the tables or `LEN_MAX`. -/
def Obligations.TablesNeverChange : Prop :=
  (∀ (cmd : Instr) (s t : State), exec cmd s = .next t → t.cfg = s.cfg) ∧
  (∀ s t : State, step s = .next t → t.cfg = s.cfg) ∧
  (∀ (s : State) (ramTables : Bool), (hostReset ramTables s).cfg = s.cfg) ∧
  (∀ (s : State) (p : Nat) (f : Frame), (present s p f).cfg = s.cfg) ∧
  (∀ s : State, (tablesLoaded s).cfg = s.cfg)

/-- 20_memory.md section 3, the properties (a) to (e) of `FWD_EFM`, checked on the model's copy of the table
(PRESUMED, log 2): distinct; 2 to 10 zeros between consecutive one-bits; at most 8 leading and 8 trailing
zeros; smallest and largest value; 0x0000 and 0x3FFF invalid. -/
def Obligations.ReferenceTableProperties : Prop :=
  InjectiveFwd configReset ∧
  (∀ s : Byte, ∀ i j : Fin 14, i < j → (romReadFwd fwdEfm s).getLsbD i = true →
    (romReadFwd fwdEfm s).getLsbD j = true →
    (∀ k : Fin 14, i < k → k < j → (romReadFwd fwdEfm s).getLsbD k = false) →
    3 ≤ j.val - i.val ∧ j.val - i.val ≤ 11) ∧
  (∀ s : Byte, (romReadFwd fwdEfm s).extractLsb' 5 9 ≠ 0 ∧ (romReadFwd fwdEfm s).extractLsb' 0 9 ≠ 0) ∧
  (∀ s : Byte, 0x0020 ≤ (romReadFwd fwdEfm s).toNat ∧ (romReadFwd fwdEfm s).toNat ≤ 0x2492) ∧
  romReadFwd fwdEfm 0x20 = 0x0020 ∧ romReadFwd fwdEfm 0xF2 = 0x2492 ∧
  romReadRev fwdEfm 0x0000 = .invalid ∧ romReadRev fwdEfm 0x3FFF = .invalid

/-! ### The window -/

/-- R64: codeword i of a window is `W[111-14i : 98-14i]`, by packing and by extraction; the fields are all of
the window. -/
def Obligations.WindowHoldsEightFields : Prop :=
  (∀ (cw : Vector Bits14 8) (i : Fin 8), (packWindow cw).extractLsb' (98 - 14 * i.val) 14 = cw[i]) ∧
  (∀ (w : Bits112) (i : Fin 8), windowField w i = w.extractLsb' (98 - 14 * i.val) 14) ∧
  (∀ w : Bits112, packWindow (windowFields w) = w)

/-- R65: "The serialized block `b[0..13]` and the window determine each other": `b[k] = W[111-8k : 104-8k]`. -/
def Obligations.BlockAndWindowDetermineEachOther : Prop :=
  ∀ (w : Bits112) (b : Vector Byte 14),
    (serialize w = b ↔ ∀ k : Fin 14, b[k] = w.extractLsb' (104 - 8 * k.val) 8) ∧
    (parse b = w ↔ ∀ k : Fin 14, b[k] = w.extractLsb' (104 - 8 * k.val) 8)

/-- 20_memory.md section 4, the codeword bits each serialized byte holds. -/
def Obligations.CodewordsAcrossBytes : Prop :=
  ∀ (cw : Vector Bits14 8) (b : Vector Byte 14), serialize (packWindow cw) = b →
    b[0] = cw[0].extractLsb' 6 8 ∧
    b[1] = cw[0].extractLsb' 0 6 ++ cw[1].extractLsb' 12 2 ∧
    b[2] = cw[1].extractLsb' 4 8 ∧
    b[3] = cw[1].extractLsb' 0 4 ++ cw[2].extractLsb' 10 4 ∧
    b[4] = cw[2].extractLsb' 2 8 ∧
    b[5] = cw[2].extractLsb' 0 2 ++ cw[3].extractLsb' 8 6 ∧
    b[6] = cw[3].extractLsb' 0 8 ∧
    b[7] = cw[4].extractLsb' 6 8 ∧
    b[8] = cw[4].extractLsb' 0 6 ++ cw[5].extractLsb' 12 2 ∧
    b[9] = cw[5].extractLsb' 4 8 ∧
    b[10] = cw[5].extractLsb' 0 4 ++ cw[6].extractLsb' 10 4 ∧
    b[11] = cw[6].extractLsb' 2 8 ∧
    b[12] = cw[6].extractLsb' 0 2 ++ cw[7].extractLsb' 8 6 ∧
    b[13] = cw[7].extractLsb' 0 8

/-- R59: the flat buses: lane i of the symbol buses is `[63-8i : 56-8i]`, byte k of the codeword buses is
`[111-8k : 104-8k]`, and `CW_OUT` is the window of ENC_BLK, `CW_IN` that of DEC_BLK. -/
def Obligations.FlatBusViews : Prop :=
  (∀ (b : Bits64) (i : Fin 8), (symOfBus b)[i] = b.extractLsb' (56 - 8 * i.val) 8) ∧
  (∀ (s : Vector Byte 8) (i : Fin 8), (busOfSym s).extractLsb' (56 - 8 * i.val) 8 = s[i]) ∧
  (∀ s : Vector Byte 8, symOfBus (busOfSym s) = s) ∧ (∀ b : Bits64, busOfSym (symOfBus b) = b) ∧
  (∀ (b : Bits112) (k : Fin 14), (blkOfBus b)[k] = b.extractLsb' (104 - 8 * k.val) 8) ∧
  (∀ (b : Vector Byte 14) (k : Fin 14), (busOfBlk b).extractLsb' (104 - 8 * k.val) 8 = b[k]) ∧
  (∀ (fwd : Vector Bits14 256) (sym : Vector Byte 8), busOfBlk (encodeBlock fwd sym) = encodeWindow fwd sym) ∧
  (∀ b : Bits112, parse (blkOfBus b) = b)

/-! ### The block commands -/

/-- R75, R78: ENC_BLK always completes: `OK` with the 14 big-endian bytes of the window whose field i is
`FWD[sym[i]]`; nothing else changes but the slot (idle). -/
def Obligations.EncBlkEncodes : Prop :=
  ∀ (s : State) (sym : Vector Byte 8), InjectiveFwd s.cfg →
    ∃ (w : Bits112) (out : Vector Byte 14) (t : State),
      (∀ i : Fin 8, w.extractLsb' (98 - 14 * i.val) 14 = romReadFwd s.cfg.fwd sym[i]) ∧
      (∀ k : Fin 14, out[k] = w.extractLsb' (104 - 8 * k.val) 8) ∧
      exec (.encBlk sym) s = .next t ∧ Delivers s (.encBlk sym) ⟨.ok, out.toList⟩ t

/-- 41_block_encode.md, injectivity: for an injective `FWD` different blocks have different outputs. -/
def Obligations.EncBlkInjective : Prop :=
  ∀ (cfg : Config) (a b : Vector Byte 8), InjectiveFwd cfg →
    response cfg (.encBlk a) = response cfg (.encBlk b) → a = b

/-- 41_block_encode.md, corner case (a): a block of equal symbols has an output of period 7 bytes, for any
`FWD`. -/
def Obligations.EqualLanesPeriodSeven : Prop :=
  ∀ (cfg : Config) (x : Byte) (k : Fin 7),
    (response cfg (.encBlk (Vector.replicate 8 x))).payload[k.val]?
      = (response cfg (.encBlk (Vector.replicate 8 x))).payload[k.val + 7]?

/-- R81, R83: DEC_BLK always completes. With the window of its bytes: `OK` with `REV`'s symbol for each field
when every field's entry is valid, else INVALID_CODEWORD with eight zero bytes; nothing else changes but
the slot (idle). -/
def Obligations.DecBlkDecodes : Prop :=
  ∀ (s : State) (blk : Vector Byte 14), InjectiveFwd s.cfg →
    ∃ (w : Bits112) (r : Response) (t : State),
      (∀ k : Fin 14, blk[k] = w.extractLsb' (104 - 8 * k.val) 8) ∧
      exec (.decBlk blk) s = .next t ∧ Delivers s (.decBlk blk) r t ∧
      (∀ sym : Vector Byte 8,
        (∀ i : Fin 8, romReadRev s.cfg.fwd (w.extractLsb' (98 - 14 * i.val) 14) = .valid sym[i]) →
        r = ⟨.ok, sym.toList⟩) ∧
      ((∃ i : Fin 8, romReadRev s.cfg.fwd (w.extractLsb' (98 - 14 * i.val) 14) = .invalid) →
        r = ⟨.invalidCodeword, [0, 0, 0, 0, 0, 0, 0, 0]⟩)

/-- R82: "The detector tests membership in the image of `FWD` and nothing else": DEC_BLK fails exactly where
some field of the window is the codeword of no symbol. -/
def Obligations.DetectorTestsImageMembership : Prop :=
  ∀ (cfg : Config) (blk : Vector Byte 14),
    (response cfg (.decBlk blk)).status = .invalidCodeword ↔
      ∃ i : Fin 8, ∀ s : Byte, romReadFwd cfg.fwd s ≠ (parse blk).extractLsb' (98 - 14 * i.val) 14

/-- 42_block_decode.md, the inverse laws (a) and (b), for an injective `FWD`: ENC_BLK of `sym` is `OK` with
`blk` exactly where DEC_BLK of `blk` is `OK` with `sym`; and ENC_BLK always is `OK` with some block. -/
def Obligations.BlockCommandsAreInverse : Prop :=
  ∀ cfg : Config, InjectiveFwd cfg →
    (∀ (sym : Vector Byte 8) (blk : Vector Byte 14),
      response cfg (.encBlk sym) = ⟨.ok, blk.toList⟩ ↔ response cfg (.decBlk blk) = ⟨.ok, sym.toList⟩) ∧
    (∀ sym : Vector Byte 8, ∃ blk : Vector Byte 14, response cfg (.encBlk sym) = ⟨.ok, blk.toList⟩)

/-! ### The buffer commands -/

/-- R90: ENC_BUF of a length that is no multiple of 8 is InvalidLength with no data; nothing else changes but
the slot (idle). -/
def Obligations.EncBufChecksLength : Prop :=
  ∀ (s : State) (data : List Byte), InjectiveFwd s.cfg → data.length ≤ s.cfg.lenMax → data.length % 8 ≠ 0 →
    ∃ t, exec (.encBuf data) s = .next t ∧ Delivers s (.encBuf data) ⟨.invalidLength, []⟩ t

/-- R91: ENC_BUF of a multiple of 8 bytes is `OK` with the in-order concatenation of ENC_BLK over its chunks,
`(n / 8) * 14` bytes; nothing else changes but the slot (idle). -/
def Obligations.EncBufConcatenatesBlocks : Prop :=
  ∀ (s : State) (data : List Byte), InjectiveFwd s.cfg → data.length ≤ s.cfg.lenMax → data.length % 8 = 0 →
    ∃ (chunks : List (Vector Byte 8)) (out : List Byte) (t : State),
      (chunks.map Vector.toList).flatten = data ∧
      out = (chunks.map fun c => (response s.cfg (.encBlk c)).payload).flatten ∧
      out.length = data.length / 8 * 14 ∧
      exec (.encBuf data) s = .next t ∧ Delivers s (.encBuf data) ⟨.ok, out⟩ t

/-- R94: DEC_BUF of a length that is no multiple of 14 is InvalidLength with no data, whatever its codewords;
nothing else changes but the slot (idle). -/
def Obligations.DecBufChecksLength : Prop :=
  ∀ (s : State) (data : List Byte), InjectiveFwd s.cfg → data.length ≤ s.cfg.lenMax → data.length % 14 ≠ 0 →
    ∃ t, exec (.decBuf data) s = .next t ∧ Delivers s (.decBuf data) ⟨.invalidLength, []⟩ t

/-- R95: DEC_BUF of a multiple of 14 bytes: `OK` with the in-order concatenation of the chunk outputs,
`(m / 14) * 8` bytes, if every chunk decodes; INVALID_CODEWORD with no data if any chunk does not; nothing
else changes but the slot (idle). -/
def Obligations.DecBufAllOrNothing : Prop :=
  ∀ (s : State) (data : List Byte), InjectiveFwd s.cfg → data.length ≤ s.cfg.lenMax → data.length % 14 = 0 →
    ∃ (chunks : List (Vector Byte 14)) (r : Response) (t : State),
      (chunks.map Vector.toList).flatten = data ∧
      exec (.decBuf data) s = .next t ∧ Delivers s (.decBuf data) r t ∧
      ((∀ c ∈ chunks, (response s.cfg (.decBlk c)).status = .ok) →
        r = ⟨.ok, (chunks.map fun c => (response s.cfg (.decBlk c)).payload).flatten⟩ ∧
        r.payload.length = data.length / 14 * 8) ∧
      ((∃ c ∈ chunks, (response s.cfg (.decBlk c)).status = .invalidCodeword) →
        r = ⟨.invalidCodeword, []⟩)

/-- 43_buffer_ops.md, the round trip: DEC_BUF of the payload of ENC_BUF of `data` is `OK` with `data`, both
run one after the other, for every `data` of whole chunks that fits. -/
def Obligations.BufferRoundTrip : Prop :=
  ∀ (s : State) (data : List Byte), InjectiveFwd s.cfg → data.length % 8 = 0 →
    data.length ≤ s.cfg.lenMax → data.length / 8 * 14 ≤ s.cfg.lenMax →
    ∃ (out : List Byte) (t u : State),
      exec (.encBuf data) s = .next t ∧ Delivers s (.encBuf data) ⟨.ok, out⟩ t ∧
      exec (.decBuf out) t = .next u ∧ Delivers t (.decBuf out) ⟨.ok, data⟩ u

/-- 43_buffer_ops.md, relation to the block commands: on one block, ENC_BUF and ENC_BLK agree; DEC_BUF and
DEC_BLK agree on status, and on payload when the status is `OK`; on INVALID_CODEWORD they give no byte and
eight zero bytes. -/
def Obligations.BufferAgreesWithBlock : Prop :=
  ∀ cfg : Config,
    (∀ sym : Vector Byte 8, response cfg (.encBuf sym.toList) = response cfg (.encBlk sym)) ∧
    (∀ blk : Vector Byte 14,
      (response cfg (.decBuf blk.toList)).status = (response cfg (.decBlk blk)).status ∧
      ((response cfg (.decBlk blk)).status = .ok →
        response cfg (.decBuf blk.toList) = response cfg (.decBlk blk)) ∧
      ((response cfg (.decBlk blk)).status = .invalidCodeword →
        (response cfg (.decBuf blk.toList)).payload = [] ∧
        (response cfg (.decBlk blk)).payload = List.replicate 8 0))

/-- R97: "A buffer command with `len(data) > LEN_MAX` has no step": run or accepted, the machine is stuck. The
fault's name, and that an idle codec stops whole when the chosen requester's command is too long, even where
another requester waits with one that fits, are the model's choice (log 9). -/
def Obligations.OverLenMaxHasNoStep : Prop :=
  ∀ (s : State) (data : List Byte), InjectiveFwd s.cfg → s.cfg.lenMax < data.length →
    exec (.encBuf data) s = .fault .noStepOverLenMax ∧
    exec (.decBuf data) s = .fault .noStepOverLenMax ∧
    (∀ (cmd : Instr) (p : Nat) (rest : List Frame), (cmd = .encBuf data ∨ cmd = .decBuf data) →
      s.slot = .idle → s.tablesReady = true → chooseRequester s = some p → portQueue s p = encode cmd :: rest →
      step s = .fault .noStepOverLenMax)

/-! ### Responses -/

/-- R63: the response payload by command and status, with the entries that never occur. -/
def Obligations.ResponsePayloads : Prop :=
  ∀ cfg : Config,
    (∀ sym, (response cfg (.encBlk sym)).status = .ok ∧ (response cfg (.encBlk sym)).payload.length = 14) ∧
    (∀ blk,
      ((response cfg (.decBlk blk)).status = .ok ∧ (response cfg (.decBlk blk)).payload.length = 8) ∨
      response cfg (.decBlk blk) = ⟨.invalidCodeword, List.replicate 8 0⟩) ∧
    (∀ data,
      ((response cfg (.encBuf data)).status = .ok ∧
        (response cfg (.encBuf data)).payload.length = data.length / 8 * 14) ∨
      response cfg (.encBuf data) = ⟨.invalidLength, []⟩) ∧
    (∀ data,
      ((response cfg (.decBuf data)).status = .ok ∧
        (response cfg (.decBuf data)).payload.length = data.length / 14 * 8) ∨
      response cfg (.decBuf data) = ⟨.invalidLength, []⟩ ∨
      response cfg (.decBuf data) = ⟨.invalidCodeword, []⟩)

/-- R101, R102: who raises each error, and when: InvalidLength exactly by a buffer command of a wrong length,
before anything else; InvalidCodeword by DEC_BLK exactly where a field of its window has no entry in REV, by
DEC_BUF exactly where the length is right and a chunk does so, and never by an encode command. -/
def Obligations.ErrorsRaisedExactlyWhen : Prop :=
  ∀ cfg : Config,
    (∀ data, (response cfg (.encBuf data)).status = .invalidLength ↔ data.length % 8 ≠ 0) ∧
    (∀ data, (response cfg (.decBuf data)).status = .invalidLength ↔ data.length % 14 ≠ 0) ∧
    (∀ sym, (response cfg (.encBlk sym)).status ≠ .invalidLength) ∧
    (∀ blk, (response cfg (.decBlk blk)).status ≠ .invalidLength) ∧
    (∀ blk, (response cfg (.decBlk blk)).status = .invalidCodeword ↔
      ∃ i : Fin 8, romReadRev cfg.fwd ((parse blk).extractLsb' (98 - 14 * i.val) 14) = .invalid) ∧
    (∀ sym, (response cfg (.encBlk sym)).status ≠ .invalidCodeword) ∧
    (∀ data, (response cfg (.encBuf data)).status ≠ .invalidCodeword) ∧
    (∀ data, (response cfg (.decBuf data)).status = .invalidCodeword ↔
      data.length % 14 = 0 ∧ ∃ j < data.length / 14,
        (response cfg (.decBlk (chunk 14 j data))).status = .invalidCodeword)

/-- R108, R47: "The same command with the same payload always gives the same status and payload": whatever
the slot, the transient values, the earlier responses and the held commands, the response to a command is
the same in two codecs of one configuration. -/
def Obligations.SameCommandSameResponse : Prop :=
  ∀ (cmd : Instr) (s s' t t' : State), s.cfg = s'.cfg → exec cmd s = .next t → exec cmd s' = .next t' →
    ∃ r : Response, t.log = s.log ++ [(cmd, r)] ∧ t'.log = s'.log ++ [(cmd, r)]

/-! ### The invariant -/

/-- The invariant of a sound run holds at reset: the admission of the reset configuration rests on the
model's copy of `FWD_EFM` (PRESUMED, log 2). -/
def Obligations.InvariantAtReset : Prop := State.Inv State.reset

/-- The invariant of a sound run is kept by every step: the configuration stays admitted, the slot holds
only a command within `LEN_MAX` accepted with the tables present, and every response in the observation is
the pure function of its command and the configuration. -/
def Obligations.StepKeepsInvariant : Prop :=
  ∀ s t : State, State.Inv s → step s = .next t → State.Inv t

/-- What the host does keeps the invariant: presenting a command, a reset, and the end of a table load. -/
def Obligations.HostKeepsInvariant : Prop :=
  ∀ s : State, State.Inv s →
    (∀ p f, State.Inv (present s p f)) ∧ (∀ ramTables, State.Inv (hostReset ramTables s)) ∧
    State.Inv (tablesLoaded s)
end

