-- ==== Sys2Proof/Laws/Tables.lean ====
section
/-! SUPPORT. The tables (20_memory.md R34 to R38): a stored entry reads back, what the ascending build
leaves at an address, and what the admission check decides. -/

namespace Sys2Proof.Machine

/-- R68: an entry read from its nine stored bits is the entry. -/
@[simp] theorem revEntryOfBits_revEntryBits (e : RevEntry) : revEntryOfBits (revEntryBits e) = e := by
  cases e with
  | invalid => decide
  | valid s =>
    have hv : revEntryBits (.valid s) = 1#1 ++ s := rfl
    have h8 : (revEntryBits (.valid s)).getLsbD 8 = true := by
      rw [hv, BitVec.getLsbD_append, if_neg (by decide)]; decide
    have hs : (revEntryBits (.valid s)).extractLsb' 0 8 = s := by
      rw [hv]
      apply BitVec.eq_of_getLsbD_eq
      intro j hj
      rw [BitVec.getLsbD_extractLsb', BitVec.getLsbD_append]
      simp [hj]
    rw [revEntryOfBits, h8, hs, if_pos rfl]

/-- The reverse ROM reads what the build wrote. -/
theorem romReadRev_eq_buildRev (fwd : Vector Bits14 256) (c : Bits14) : romReadRev fwd c = buildRev fwd c := by
  rw [romReadRev, revRom, revEntryOfBits_revEntryBits]

/-- The build of R36 over a list of codewords, the first at symbol 0. -/
def buildList (l : List Bits14) : Bits14 → RevEntry :=
  l.zipIdx.foldl (fun rev (c, s) => writeRev rev c (.valid (BitVec.ofNat 8 s))) fun _ => .invalid

theorem buildRev_eq_buildList (fwd : Vector Bits14 256) : buildRev fwd = buildList fwd.toList := rfl

/-- One more codeword: the last write of the build. -/
theorem buildList_concat (l : List Bits14) (a : Bits14) :
    buildList (l ++ [a]) = writeRev (buildList l) a (.valid (BitVec.ofNat 8 l.length)) := by
  simp [buildList, List.zipIdx_append]

/-- "the later symbol wins" (R36): an entry is valid with `e` exactly where `e` is the last index of the
address among the codewords. -/
theorem buildList_eq_valid_iff (l : List Bits14) (c : Bits14) (e : Byte) :
    buildList l c = .valid e ↔
      ∃ i, ∃ h : i < l.length, l[i] = c ∧ BitVec.ofNat 8 i = e ∧
        ∀ j, ∀ h' : j < l.length, i < j → l[j] ≠ c := by
  induction l using List.reverseRecOn with
  | nil => simp [buildList]
  | append_singleton l a ih =>
    rw [buildList_concat, writeRev]
    by_cases hc : c = a
    · subst hc
      simp only [if_true, RevEntry.valid.injEq]
      constructor
      · intro he
        exact ⟨l.length, by simp, by simp, he, fun j hj hlt => by simp at hj; omega⟩
      · rintro ⟨i, hi, -, rfl, hlast⟩
        by_cases h : i = l.length
        · rw [h]
        · simp only [List.length_append, List.length_singleton] at hi
          exact absurd (by simp) (hlast l.length (by simp) (by omega))
    · simp only [hc, if_false, ih]
      constructor
      · rintro ⟨i, hi, h1, h2, h3⟩
        refine ⟨i, by simp; omega, by simpa [hi] using h1, h2, fun j hj hlt => ?_⟩
        simp only [List.length_append, List.length_singleton] at hj
        by_cases hj' : j < l.length
        · simpa [hj'] using h3 j hj' hlt
        · have : j = l.length := by omega
          subst this; simpa using Ne.symm hc
      · rintro ⟨i, hi, h1, h2, h3⟩
        simp only [List.length_append, List.length_singleton] at hi
        have hi' : i < l.length := by
          by_contra hcon
          have : i = l.length := by omega
          subst this; simp at h1; exact hc h1.symm
        refine ⟨i, hi', by simpa [hi'] using h1, h2, fun j hj hlt => ?_⟩
        have h4 := h3 j (by simp; omega) hlt
        rwa [List.getElem_append_left hj] at h4

/-- What the admission check decides: no value of the list is in `seen`, and none occurs twice. -/
theorem distinctFrom_iff (l : List Bits14) (seen : Nat) :
    distinctFrom seen l = true ↔ (∀ c ∈ l, seen.testBit c.toNat = false) ∧ l.Nodup := by
  induction l generalizing seen with
  | nil => simp [distinctFrom]
  | cons a l ih =>
    have hbit (c : Bits14) : (seen ||| 1 <<< a.toNat).testBit c.toNat = (seen.testBit c.toNat || decide (a = c)) := by
      rw [Nat.testBit_or, Nat.one_shiftLeft, Nat.testBit_two_pow]
      simp [BitVec.toNat_inj]
    simp only [distinctFrom, Bool.and_eq_true, Bool.not_eq_true', ih, hbit, Bool.or_eq_false_iff,
      decide_eq_false_iff_not, List.mem_cons, forall_eq_or_imp, List.nodup_cons]
    constructor
    · rintro ⟨h1, h2, h3⟩
      exact ⟨⟨h1, fun c hc => (h2 c hc).1⟩, fun ha => (h2 a ha).2 rfl, h3⟩
    · rintro ⟨⟨h1, h2⟩, h3, h4⟩
      exact ⟨h1, fun c hc => ⟨h2 c hc, fun e => h3 (e ▸ hc)⟩, h4⟩

/-- The admission check runs over the table's list. -/
theorem admitted_iff_nodup (cfg : Config) : admitted cfg = true ↔ cfg.fwd.toList.Nodup := by
  simp [admitted, distinctFrom_iff]

/-- R37: the admission check decides that `FWD` is injective. -/
theorem admitted_iff_injectiveFwd (cfg : Config) : admitted cfg = true ↔ InjectiveFwd cfg := by
  rw [admitted_iff_nodup, List.nodup_iff_injective_getElem]
  have hlen : cfg.fwd.toList.length = 256 := by simp
  constructor
  · intro h s t e
    have hst := @h ⟨s.toNat, by rw [hlen]; exact s.isLt⟩ ⟨t.toNat, by rw [hlen]; exact t.isLt⟩ (by simpa [romReadFwd] using e)
    exact BitVec.eq_of_toNat_eq (Fin.mk.inj hst)
  · intro h a b e
    have hn (k : Fin cfg.fwd.toList.length) : (BitVec.ofNat 8 k.val).toNat = k.val := by
      have := k.isLt
      rw [BitVec.toNat_ofNat, Nat.mod_eq_of_lt (by omega)]
    have hab := h (BitVec.ofNat 8 a.val) (BitVec.ofNat 8 b.val) (by
      simp only [romReadFwd, hn]
      simpa using e)
    rw [Fin.ext_iff, ← hn a, ← hn b, hab]

end Sys2Proof.Machine
end

