-- ==== Sys2Proof/Laws/Window.lean ====
section
/-! SUPPORT. The window (30_encoding.md R64), its serialization (R65) and the buses (R59): fields that are
shifted into place and OR-ed together are read back unchanged. -/

namespace Sys2Proof.Machine

/-- A bit of an `n`-bit field shifted to its place in an `N`-bit value that has room for it. -/
theorem getLsbD_field {N n : Nat} (x : BitVec n) {off : Nat} (h : off + n ≤ N) (j : Nat) :
    (x.setWidth N <<< off).getLsbD j = (decide (off ≤ j) && x.getLsbD (j - off)) := by
  rw [BitVec.getLsbD_shiftLeft, BitVec.getLsbD_setWidth]
  by_cases hj : off ≤ j
  · by_cases hs : j - off < n
    · have h1 : j < N := by omega
      have h2 : j - off < N := by omega
      have h3 : ¬ j < off := by omega
      simp [hj, h1, h2, h3]
    · simp [BitVec.getLsbD_of_ge x (j - off) (by omega)]
  · have h3 : j < off := by omega
    simp [hj, h3]

/-- A bit of the OR of fields, each shifted to its own place. -/
theorem getLsbD_orFields {N n m : Nat} (x : Fin m → BitVec n) (off : Fin m → Nat)
    (h : ∀ i, off i + n ≤ N) (l : List (Fin m)) (w : BitVec N) (j : Nat) :
    (l.foldl (fun w i => w ||| ((x i).setWidth N <<< off i)) w).getLsbD j
      = (w.getLsbD j || l.any fun i => decide (off i ≤ j) && (x i).getLsbD (j - off i)) := by
  induction l generalizing w with
  | nil => simp
  | cons i l ih => rw [List.foldl_cons, List.any_cons, ih, BitVec.getLsbD_or, getLsbD_field _ (h i), Bool.or_assoc]

/-- Disjoint fields: the field at a place is the value that was put there. -/
theorem extractLsb'_orFields {N n m : Nat} (x : Fin m → BitVec n) (off : Fin m → Nat)
    (h : ∀ i, off i + n ≤ N) (hd : ∀ i k, i ≠ k → off i + n ≤ off k ∨ off k + n ≤ off i) (k : Fin m) :
    ((List.finRange m).foldl (fun w i => w ||| ((x i).setWidth N <<< off i)) (0 : BitVec N)).extractLsb' (off k) n
      = x k := by
  apply BitVec.eq_of_getLsbD_eq
  intro j hj
  rw [BitVec.getLsbD_extractLsb', getLsbD_orFields x off h, Bool.eq_iff_iff]
  simp only [hj, decide_true, Bool.true_and, BitVec.ofNat_eq_ofNat, BitVec.getLsbD_zero, Bool.false_or,
    List.any_eq_true, List.mem_finRange, true_and, Bool.and_eq_true, decide_eq_true_eq]
  constructor
  · rintro ⟨i, hi, hb⟩
    have hlt := BitVec.lt_of_getLsbD hb
    by_cases hik : i = k
    · subst hik; rwa [Nat.add_sub_cancel_left] at hb
    · rcases hd i k hik with h1 | h1 <;> omega
  · intro hb
    exact ⟨k, by omega, by rwa [Nat.add_sub_cancel_left]⟩

/-- Two values with the same fields everywhere are equal. -/
theorem eq_of_fields {N n m : Nat} (off : Fin m → Nat) (hc : ∀ j < N, ∃ k, off k ≤ j ∧ j < off k + n)
    {v w : BitVec N} (h : ∀ k, v.extractLsb' (off k) n = w.extractLsb' (off k) n) : v = w := by
  apply BitVec.eq_of_getLsbD_eq
  intro j hj
  obtain ⟨k, h1, h2⟩ := hc j hj
  have e := congrArg (BitVec.getLsbD · (j - off k)) (h k)
  simp only [BitVec.getLsbD_extractLsb', Nat.add_sub_cancel' h1] at e
  have hl : j - off k < n := by omega
  simpa [hl] using e

/-! ### The window's fields (R64) -/

theorem laneOffset_eq (i : Fin 8) : laneOffset i = 98 - 14 * i.val := by unfold laneOffset; omega

theorem laneOffset_le (i : Fin 8) : laneOffset i + 14 ≤ 112 := by rw [laneOffset_eq]; omega

theorem laneOffset_disjoint (i k : Fin 8) (h : i ≠ k) :
    laneOffset i + 14 ≤ laneOffset k ∨ laneOffset k + 14 ≤ laneOffset i := by
  rw [laneOffset_eq, laneOffset_eq]; omega

theorem laneOffset_cover (j : Nat) (h : j < 112) : ∃ i : Fin 8, laneOffset i ≤ j ∧ j < laneOffset i + 14 :=
  ⟨⟨7 - j / 14, by omega⟩, by simp only [laneOffset_eq]; omega, by simp only [laneOffset_eq]; omega⟩

/-- The two forms of R64's field: `(W >> off) & 0x3FFF` is `W[111-14i : 98-14i]`. -/
theorem windowField_eq_extractLsb' (w : Bits112) (i : Fin 8) :
    windowField w i = w.extractLsb' (98 - 14 * i.val) 14 := by
  apply BitVec.eq_of_toNat_eq
  have hmask : (0x3FFF : Bits112).toNat = 2 ^ 14 - 1 := by decide
  simp only [windowField, laneOffset_eq, BitVec.toNat_setWidth, BitVec.toNat_and, BitVec.toNat_ushiftRight,
    BitVec.extractLsb'_toNat]
  rw [hmask, Nat.and_two_pow_sub_one_eq_mod, Nat.mod_mod]

@[simp] theorem windowField_packWindow (cw : Vector Bits14 8) (i : Fin 8) :
    windowField (packWindow cw) i = cw[i] := by
  rw [windowField_eq_extractLsb', ← laneOffset_eq]
  exact extractLsb'_orFields (fun i => cw[i]) laneOffset laneOffset_le laneOffset_disjoint i

/-- Windows with the same codeword fields are equal: no window bit lies outside every field (R85). -/
theorem window_eq_of_fields {v w : Bits112} (h : ∀ i, windowField v i = windowField w i) : v = w := by
  refine eq_of_fields laneOffset laneOffset_cover fun i => ?_
  have e := h i
  rwa [windowField_eq_extractLsb', windowField_eq_extractLsb', ← laneOffset_eq] at e

@[simp] theorem windowFields_packWindow (cw : Vector Bits14 8) : windowFields (packWindow cw) = cw := by
  apply Vector.ext
  intro i hi
  simp [windowFields]

@[simp] theorem packWindow_windowFields (w : Bits112) : packWindow (windowFields w) = w :=
  window_eq_of_fields fun i => by simp [windowFields]

/-! ### The serialized bytes (R65) -/

theorem byteOffset_cover (j : Nat) (h : j < 112) : ∃ k : Fin 14, 8 * (13 - k.val) ≤ j ∧ j < 8 * (13 - k.val) + 8 :=
  ⟨⟨13 - j / 8, by omega⟩, by simp only; omega, by simp only; omega⟩

theorem byte_of_parse (b : Vector Byte 14) (k : Fin 14) : (parse b).extractLsb' (104 - 8 * k.val) 8 = b[k] := by
  rw [show 104 - 8 * k.val = 8 * (13 - k.val) by omega]
  exact extractLsb'_orFields (fun k => b[k]) (fun k : Fin 14 => 8 * (13 - k.val)) (fun i => by omega)
    (fun i k h => by omega) k

@[simp] theorem serialize_parse (b : Vector Byte 14) : serialize (parse b) = b := by
  apply Vector.ext
  intro k hk
  simpa [serialize] using byte_of_parse b ⟨k, hk⟩

/-- The window is the one value whose bytes are the serialized block's. -/
theorem parse_eq_of_bytes {b : Vector Byte 14} {w : Bits112}
    (h : ∀ k : Fin 14, b[k] = w.extractLsb' (104 - 8 * k.val) 8) : parse b = w := by
  refine eq_of_fields (fun k : Fin 14 => 8 * (13 - k.val)) byteOffset_cover fun k => ?_
  have e := byte_of_parse b k
  rw [show 104 - 8 * k.val = 8 * (13 - k.val) by omega] at e
  rw [e, h k, show 104 - 8 * k.val = 8 * (13 - k.val) by omega]

@[simp] theorem parse_serialize (w : Bits112) : parse (serialize w) = w :=
  parse_eq_of_bytes fun k => by simp [serialize]

/-! ### The symbol bus (R59) -/

theorem lane_of_busOfSym (s : Vector Byte 8) (i : Fin 8) :
    (busOfSym s).extractLsb' (56 - 8 * i.val) 8 = s[i] := by
  rw [show 56 - 8 * i.val = 8 * (7 - i.val) by omega]
  exact extractLsb'_orFields (fun i => s[i]) (fun i : Fin 8 => 8 * (7 - i.val)) (fun i => by omega)
    (fun i k h => by omega) i

end Sys2Proof.Machine
end

