-- ==== Sys2Proof/Laws/Blocks.lean ====
section
/-! SUPPORT. The block datapaths (41_block_encode.md, 42_block_decode.md) by lane, and the sequencer's
loops (43_buffer_ops.md) as concatenations. -/

namespace Sys2Proof.Machine

/-- The encoder's window, lane by lane (R76). -/
@[simp] theorem windowField_encodeWindow (fwd : Vector Bits14 256) (sym : Vector Byte 8) (i : Fin 8) :
    windowField (encodeWindow fwd sym) i = romReadFwd fwd sym[i] := by
  simp [encodeWindow, laneCodewords]

/-- The encoder's bytes parse back to its window (R59, R65). -/
@[simp] theorem parse_encodeBlock (fwd : Vector Bits14 256) (sym : Vector Byte 8) :
    parse (encodeBlock fwd sym) = encodeWindow fwd sym := by simp [encodeBlock]

/-- R82: the detector is silent exactly where every lane is valid. -/
theorem invalidCodewordDetector_eq_false_iff (v : Vector Bool 8) :
    invalidCodewordDetector v = false ↔ ∀ i : Fin 8, v[i] = true := by
  simp [invalidCodewordDetector]

theorem entryValid_eq_true_iff (e : RevEntry) : entryValid e = true ↔ e = .valid (entrySym e) := by
  cases e <;> simp [entryValid, entrySym]

/-- R81: a block decodes to `sym` exactly where every lane's entry is valid with its symbol. -/
theorem decodeBlock_eq_some_iff (fwd : Vector Bits14 256) (blk : Vector Byte 14) (sym : Vector Byte 8) :
    decodeBlock fwd blk = some sym ↔
      ∀ i : Fin 8, romReadRev fwd (windowField (parse blk) i) = .valid sym[i] := by
  have he (i : Fin 8) : (laneEntries fwd (parse blk))[i] = romReadRev fwd (windowField (parse blk) i) := by
    simp [laneEntries, windowFields]
  unfold decodeBlock
  constructor
  · intro h i
    simp only at h
    split at h
    · simp at h
    · next hb =>
      have hv := (invalidCodewordDetector_eq_false_iff _).1 (by simpa using hb) i
      have hs := Option.some.inj h
      rw [← he, ← hs]
      simpa using (entryValid_eq_true_iff _).1 (by simpa using hv)
  · intro h
    have hb : invalidCodewordDetector ((laneEntries fwd (parse blk)).map entryValid) = false := by
      rw [invalidCodewordDetector_eq_false_iff]
      intro i
      have := he i
      simp only [Fin.getElem_fin] at this
      simp [this, h i, entryValid]
    simp only [hb, Bool.false_eq_true, if_false, Option.some.injEq]
    apply Vector.ext
    intro i hi
    have h1 := he ⟨i, hi⟩
    have h2 := h ⟨i, hi⟩
    simp only [Fin.getElem_fin] at h1 h2
    simp [h1, h2, entrySym]

/-- R82: a block is refused exactly where some lane's entry is `Invalid`. -/
theorem decodeBlock_eq_none_iff (fwd : Vector Bits14 256) (blk : Vector Byte 14) :
    decodeBlock fwd blk = none ↔ ∃ i : Fin 8, romReadRev fwd (windowField (parse blk) i) = .invalid := by
  rw [← not_iff_not, ← Ne, Option.ne_none_iff_exists', not_exists]
  constructor
  · rintro ⟨sym, h⟩ i
    simp [(decodeBlock_eq_some_iff fwd blk sym).1 h i]
  · intro h
    refine ⟨Vector.ofFn fun i => entrySym (romReadRev fwd (windowField (parse blk) i)), ?_⟩
    rw [decodeBlock_eq_some_iff]
    intro i
    cases hi : romReadRev fwd (windowField (parse blk) i) with
    | valid s => simp [hi, entrySym]
    | invalid => exact absurd hi (h i)

/-- The encoding loop appends the chunks' blocks in order (R91). -/
theorem encChunks_eq (fwd : Vector Bits14 256) (data : List Byte) (js : List Nat) (acc : List Byte) :
    encChunks fwd data js acc = acc ++ (js.map fun j => (encodeBlock fwd (chunk 8 j data)).toList).flatten := by
  induction js generalizing acc with
  | nil => simp [encChunks]
  | cons j js ih => simp [encChunks, ih]

/-- The decoding loop succeeds exactly where every chunk does, and appends their symbols (R95). -/
theorem decChunks_eq_some_iff (fwd : Vector Bits14 256) (data : List Byte) (js : List Nat) (acc out : List Byte) :
    decChunks fwd data js acc = some out ↔
      ∃ syms : List (Vector Byte 8), js.map (fun j => decodeBlock fwd (chunk 14 j data)) = syms.map some ∧
        out = acc ++ (syms.map Vector.toList).flatten := by
  induction js generalizing acc with
  | nil =>
    simp only [decChunks, Option.some.injEq, List.map_nil]
    constructor
    · rintro rfl; exact ⟨[], by simp⟩
    · rintro ⟨syms, h, rfl⟩
      simp [List.map_eq_nil_iff.1 h.symm]
  | cons j js ih =>
    simp only [decChunks, List.map_cons]
    cases hd : decodeBlock fwd (chunk 14 j data) with
    | none =>
      simp only [reduceCtorEq, false_iff, not_exists, not_and]
      intro syms h
      cases syms <;> simp at h
    | some sym =>
      simp only [ih]
      constructor
      · rintro ⟨syms, h, rfl⟩
        exact ⟨sym :: syms, by simp [h], by simp⟩
      · rintro ⟨syms, h, rfl⟩
        cases syms with
        | nil => simp at h
        | cons x syms =>
          simp only [List.map_cons, List.cons.injEq, Option.some.injEq] at h
          exact ⟨syms, h.2, by simp [h.1]⟩

theorem chunk_zero_toList {n : Nat} (data : List Byte) (h : n ≤ data.length) :
    (chunk n 0 data).toList = data.take n := by
  apply List.ext_getElem
  · simp [h]
  · intro i h1 h2
    have hi : i < data.length := by simp at h1; omega
    simp [chunk, List.getD_eq_getElem?_getD, hi]

theorem chunk_succ {n : Nat} (data : List Byte) (j : Nat) : chunk n (j + 1) data = chunk n j (data.drop n) := by
  apply Vector.ext
  intro i hi
  simp only [chunk, Vector.getElem_ofFn, List.getD_eq_getElem?_getD, List.getElem?_drop]
  congr 2
  ring

/-- A buffer of whole chunks is the concatenation of its chunks (R16). -/
theorem chunks_flatten {n : Nat} (hn : 0 < n) (data : List Byte) (h : n ∣ data.length) :
    ((List.range (data.length / n)).map fun j => (chunk n j data).toList).flatten = data := by
  obtain ⟨m, hm⟩ := h
  rw [hm, Nat.mul_div_cancel_left m hn]
  induction m generalizing data with
  | zero => simpa using (List.length_eq_zero_iff.1 (by simpa using hm)).symm
  | succ m ih =>
    have hlen : n ≤ data.length := by rw [hm]; exact Nat.le_mul_of_pos_right n (by omega)
    have hd : (data.drop n).length = n * m := by rw [List.length_drop, hm]; simp [Nat.mul_succ]
    rw [List.range_succ_eq_map, List.map_cons, List.map_map, List.flatten_cons, chunk_zero_toList data hlen]
    simp only [Function.comp_def, Nat.succ_eq_add_one, chunk_succ]
    rw [ih _ hd, List.take_append_drop]

/-- Chunk j of a concatenation of chunks is the j-th of them (R16). -/
theorem chunk_flatten {n : Nat} (vs : List (Vector Byte n)) (j : Nat) (hj : j < vs.length) :
    chunk n j (vs.map Vector.toList).flatten = vs[j] := by
  induction vs generalizing j with
  | nil => simp at hj
  | cons v vs ih =>
    rw [List.map_cons, List.flatten_cons]
    cases j with
    | zero =>
      apply Vector.toList_inj.1
      rw [chunk_zero_toList _ (by simp)]
      simp
    | succ j =>
      rw [chunk_succ, List.drop_left' (by simp)]
      simpa using ih j (by simpa using hj)

end Sys2Proof.Machine
end

