-- ==== Sys2Proof/Laws/Decode.lean ====
section
/-! SUPPORT. What each payload reader of the decoder accepts (30_encoding.md R58, R60). -/

namespace Sys2Proof

/-- A block payload of `n` bytes is read exactly where no `LEN` is carried and the bytes are its own. -/
theorem blockPayload_eq_ok_iff {n : Nat} {f : Frame} {v : Vector Byte n} :
    blockPayload n f = .ok v ↔ f.len = none ∧ f.payload = v.toList := by
  obtain ⟨op, len, pl⟩ := f
  cases len with
  | some _ => simp [blockPayload]
  | none =>
    simp only [blockPayload, true_and]
    constructor
    · intro h
      split at h
      · rw [← Except.ok.inj h]; rfl
      · simp at h
    · rintro rfl
      rw [dif_pos (by simp)]
      rfl

/-- A buffer payload is read exactly where the `LEN` carried is its length. -/
theorem bufferPayload_eq_ok_iff {f : Frame} {d : List Byte} :
    bufferPayload f = .ok d ↔ f.len = some d.length ∧ f.payload = d := by
  obtain ⟨op, len, pl⟩ := f
  cases len with
  | none => simp [bufferPayload]
  | some m =>
    simp only [bufferPayload]
    split
    · next h => subst h; simp only [Except.ok.injEq, Option.some.injEq]; constructor
                · rintro rfl; simp
                · rintro ⟨_, h⟩; exact h
    · next h =>
      simp only [reduceCtorEq, false_iff, not_and, Option.some.injEq]
      rintro rfl rfl
      exact h rfl

/-- The four values of `OP` (R57). -/
theorem op_cases (op : BitVec 2) : op = 0b00 ∨ op = 0b01 ∨ op = 0b10 ∨ op = 0b11 := by
  revert op; decide

/-! ### The decoder at each value of `OP` (R69) -/

variable (len : Option Nat) (p : List Byte)

theorem decode_op00 : decode ⟨0b00, len, p⟩ = (blockPayload 8 ⟨0b00, len, p⟩).map .encBlk := by
  simp [decode, Frame.buf, Frame.dir]
theorem decode_op01 : decode ⟨0b01, len, p⟩ = (blockPayload 14 ⟨0b01, len, p⟩).map .decBlk := by
  simp [decode, Frame.buf, Frame.dir]
theorem decode_op10 : decode ⟨0b10, len, p⟩ = (bufferPayload ⟨0b10, len, p⟩).map .encBuf := by
  simp [decode, Frame.buf, Frame.dir]
theorem decode_op11 : decode ⟨0b11, len, p⟩ = (bufferPayload ⟨0b11, len, p⟩).map .decBuf := by
  simp [decode, Frame.buf, Frame.dir]

end Sys2Proof
end

