-- ==== Sys2Proof/Laws/State.lean ====
section
/-! SUPPORT. One lemma per field for each update of State, true by rfl. -/

namespace Sys2Proof.Machine

variable (s : State) (cmd : Instr) (r : Response) (p : Nat) (f : Frame) (b : Bool)

@[simp] theorem deliver_cfg : (deliver s cmd r).cfg = s.cfg := rfl
@[simp] theorem deliver_slot : (deliver s cmd r).slot = .idle := rfl
@[simp] theorem deliver_tablesReady : (deliver s cmd r).tablesReady = s.tablesReady := rfl
@[simp] theorem deliver_ports : (deliver s cmd r).ports = s.ports := rfl
@[simp] theorem deliver_log : (deliver s cmd r).log = s.log ++ [(cmd, r)] := rfl

@[simp] theorem accepted_cfg : (accepted s p cmd).cfg = s.cfg := rfl
@[simp] theorem accepted_slot : (accepted s p cmd).slot = .busy cmd := rfl
@[simp] theorem accepted_tablesReady : (accepted s p cmd).tablesReady = s.tablesReady := rfl
@[simp] theorem accepted_ports : (accepted s p cmd).ports = s.ports.set p (portQueue s p).tail := rfl
@[simp] theorem accepted_log : (accepted s p cmd).log = s.log := rfl

@[simp] theorem loadSlot_cfg : (loadSlot s cmd).cfg = s.cfg := rfl
@[simp] theorem loadSlot_slot : (loadSlot s cmd).slot = .busy cmd := rfl
@[simp] theorem loadSlot_tablesReady : (loadSlot s cmd).tablesReady = true := rfl
@[simp] theorem loadSlot_ports : (loadSlot s cmd).ports = s.ports := rfl
@[simp] theorem loadSlot_log : (loadSlot s cmd).log = s.log := rfl

@[simp] theorem hostReset_cfg : (hostReset b s).cfg = s.cfg := rfl
@[simp] theorem hostReset_slot : (hostReset b s).slot = .idle := rfl
@[simp] theorem hostReset_tablesReady : (hostReset b s).tablesReady = !b := rfl
@[simp] theorem hostReset_ports : (hostReset b s).ports = s.ports := rfl
@[simp] theorem hostReset_log : (hostReset b s).log = s.log := rfl

@[simp] theorem tablesLoaded_cfg : (tablesLoaded s).cfg = s.cfg := rfl
@[simp] theorem tablesLoaded_slot : (tablesLoaded s).slot = s.slot := rfl
@[simp] theorem tablesLoaded_tablesReady : (tablesLoaded s).tablesReady = true := rfl
@[simp] theorem tablesLoaded_ports : (tablesLoaded s).ports = s.ports := rfl
@[simp] theorem tablesLoaded_log : (tablesLoaded s).log = s.log := rfl

@[simp] theorem present_cfg : (present s p f).cfg = s.cfg := rfl
@[simp] theorem present_slot : (present s p f).slot = s.slot := rfl
@[simp] theorem present_tablesReady : (present s p f).tablesReady = s.tablesReady := rfl
@[simp] theorem present_ports :
    (present s p f).ports = (padPorts (p + 1) s.ports).set p (portQueue s p ++ [f]) := rfl
@[simp] theorem present_log : (present s p f).log = s.log := rfl

end Sys2Proof.Machine
end

