-- ==== Sys2Proof/Laws/Ops.lean ====
section
/-! SUPPORT. Everything the shared operations, a command and a step can do, each said once. -/

namespace Sys2Proof.Machine

theorem guardConfig_of_admitted {s : State} (h : admitted s.cfg = true) (k : Result) : guardConfig s k = k := by
  simp [guardConfig, h]

theorem guardConfig_eq_next_iff {s t : State} {k : Result} :
    guardConfig s k = .next t ↔ admitted s.cfg = true ∧ k = .next t := by
  unfold guardConfig; split <;> simp_all

/-- The two readings of "longer than `LEN_MAX`" (R8, R57). -/
theorem tooLong_eq (cfg : Config) (n : Nat) : tooLong cfg n = !decide (n ≤ cfg.lenMax) := by
  rw [tooLong, ← decide_not, decide_eq_decide, Nat.not_le]

/-- A command is too long exactly where it is not well-formed for the configuration (R8, R57). -/
theorem commandTooLong_eq (cfg : Config) (i : Instr) : commandTooLong cfg i = !i.wellFormed cfg := by
  cases i <;> simp only [commandTooLong, Instr.wellFormed, tooLong_eq, Bool.not_true]

/-- Every command's meaning in one equation: refused, stuck, or its response delivered (R14, R99). -/
theorem exec_eq (i : Instr) (s : State) :
    exec i s = if admitted s.cfg then
        if i.wellFormed s.cfg then .next (deliver s i (response s.cfg i)) else .fault .noStepOverLenMax
      else .refused .tableNotInjective := by
  cases i <;>
    simp only [exec, execEncBlk, execDecBlk, execEncBuf, execDecBuf, guardConfig, guardLength, tooLong_eq, complete,
      response, Instr.wellFormed, Bool.not_eq_eq_eq_not, decide_eq_true_eq, if_true] <;>
    split_ifs <;> simp_all

/-- What a command does when it answers a next state. -/
theorem exec_eq_next_iff {i : Instr} {s t : State} :
    exec i s = .next t ↔
      admitted s.cfg = true ∧ i.wellFormed s.cfg = true ∧ t = deliver s i (response s.cfg i) := by
  rw [exec_eq]
  split_ifs with ha hw
  · simp only [ha, hw, Host.Outcome.next.injEq, true_and]; exact eq_comm
  · simp [hw]
  · simp [ha]

/-- The chosen requester is one that waits (R53). -/
theorem chooseRequester_mem {s : State} {p : Nat} (h : chooseRequester s = some p) : p ∈ waiting s := by
  unfold chooseRequester at h
  split at h
  · simp at h
  · simp_all
  · next a b r hw =>
    have hlt : Config.freeChoice s.freeCount % (a :: b :: r).length < (a :: b :: r).length :=
      Nat.mod_lt _ (by simp)
    rw [Option.some.injEq, List.getD_eq_getElem _ _ hlt] at h
    rw [hw, ← h]
    exact List.getElem_mem _

/-- No requester is chosen exactly where none waits. -/
theorem chooseRequester_eq_none_iff {s : State} : chooseRequester s = none ↔ waiting s = [] := by
  unfold chooseRequester; split <;> simp_all

/-- A requester waits where its queue holds a command. -/
theorem mem_waiting {s : State} {p : Nat} : p ∈ waiting s ↔ p < s.ports.length ∧ portQueue s p ≠ [] := by
  simp [waiting]

/-- The queues after an acceptance: the chosen requester's first command is gone, the others are held. -/
theorem portQueue_accepted {s : State} {p : Nat} (cmd : Instr) (hp : p < s.ports.length) (q : Nat) :
    portQueue (accepted s p cmd) q = if q = p then (portQueue s p).tail else portQueue s q := by
  unfold portQueue
  by_cases h : q = p
  · subst h; simp [List.getD_eq_getElem?_getD, hp, portQueue]
  · simp [List.getD_eq_getElem?_getD, List.getElem?_set_ne (Ne.symm h), h]

/-- Padding adds no command: every queue reads as before. -/
theorem getD_padPorts (n q : Nat) (ports : List (List Frame)) : (padPorts n ports).getD q [] = ports.getD q [] := by
  by_cases h : q < ports.length
  · simp [padPorts, List.getD_eq_getElem?_getD, List.getElem?_append_left h]
  · simp only [padPorts, List.getD_eq_getElem?_getD, List.getElem?_append_right (Nat.not_lt.1 h),
      List.getElem?_eq_none (Nat.not_lt.1 h), List.getElem?_replicate]
    split <;> rfl

/-- The queues after a presentation: the command joins the end of its requester's queue, the others are held
as before (R125). -/
theorem portQueue_present (s : State) (p : Nat) (f : Frame) (q : Nat) :
    portQueue (present s p f) q = if q = p then portQueue s p ++ [f] else portQueue s q := by
  have hlen : p < (padPorts (p + 1) s.ports).length := by simp [padPorts]; omega
  by_cases h : q = p
  · subst h; simp [portQueue, List.getD_eq_getElem?_getD, hlen]
  · rw [if_neg h, portQueue, present_ports, List.getD_eq_getElem?_getD, List.getElem?_set_ne (Ne.symm h),
      ← List.getD_eq_getElem?_getD, getD_padPorts, portQueue]

/-- What an idle codec does when it answers a next state: it waits, or it accepts a held command. -/
theorem acceptNext_eq_next {s t : State} (h : acceptNext s = .next t) :
    admitted s.cfg = true ∧
    (t = s ∨ ∃ p f cmd, s.tablesReady = true ∧ chooseRequester s = some p ∧ (portQueue s p).head? = some f ∧
      decode f = .ok cmd ∧ cmd.wellFormed s.cfg = true ∧ t = accepted s p cmd) := by
  obtain ⟨ha, h⟩ := guardConfig_eq_next_iff.1 h
  refine ⟨ha, ?_⟩
  split at h
  · next hr =>
    split at h
    · left; simpa using h.symm
    · next p hp =>
      unfold acceptFrom at h
      split at h
      · left; simpa using h.symm
      · next f rest hq =>
        split at h
        · simp at h
        · next cmd hd =>
          rw [commandTooLong_eq] at h
          split at h
          · simp at h
          · next hw =>
            right
            exact ⟨p, f, cmd, hr, hp, by simp [hq], hd, by simpa using hw, by simpa using h.symm⟩
  · left; simpa using h.symm

/-- What a step does when it answers a next state (R25, R99): a busy codec delivers, an idle one waits or
accepts. -/
theorem step_eq_next {s t : State} (h : step s = .next t) :
    admitted s.cfg = true ∧
    ((∃ cmd, s.slot = .busy cmd ∧ cmd.wellFormed s.cfg = true ∧ t = deliver s cmd (response s.cfg cmd)) ∨
     (s.slot = .idle ∧ t = s) ∨
     (s.slot = .idle ∧ ∃ p f cmd, s.tablesReady = true ∧ chooseRequester s = some p ∧
        (portQueue s p).head? = some f ∧ decode f = .ok cmd ∧ cmd.wellFormed s.cfg = true ∧
        t = accepted s p cmd)) := by
  unfold step at h
  split at h
  · next hs =>
    obtain ⟨ha, h1 | h1⟩ := acceptNext_eq_next h
    · exact ⟨ha, .inr (.inl ⟨hs, h1⟩)⟩
    · exact ⟨ha, .inr (.inr ⟨hs, h1⟩)⟩
  · next cmd hs =>
    obtain ⟨ha, hw, ht⟩ := exec_eq_next_iff.1 h
    exact ⟨ha, .inl ⟨cmd, hs, hw, ht⟩⟩

end Sys2Proof.Machine
end

