-- ==== Sys2Proof/Laws/PerInstr.lean ====
section
/-! SUPPORT. One lemma per command: a `LEN` is carried exactly where `BUF` is set (30_encoding.md R60). -/

namespace Sys2Proof.Laws.LenCarriedIffBuf

/-- R60: "`OP[1] = 0` means a fixed-length payload", `OP[1] = 1` that the length is the `LEN` carried. -/
def Statement (i : Instr) : Prop := (encode i).len.isSome = (encode i).buf

theorem encBlk (sym : Vector Byte 8) : Statement (.encBlk sym) := by simp [Statement, encode, Frame.buf]
theorem decBlk (blk : Vector Byte 14) : Statement (.decBlk blk) := by simp [Statement, encode, Frame.buf]
theorem encBuf (data : List Byte) : Statement (.encBuf data) := by simp [Statement, encode, Frame.buf]
theorem decBuf (data : List Byte) : Statement (.decBuf data) := by simp [Statement, encode, Frame.buf]

end Sys2Proof.Laws.LenCarriedIffBuf
end

