-- ==== Sys2Proof/Machine/Asm.lean ====
section
/-! DEFINITION. The text form of commands, encodings and responses (30_encoding.md R72, R73): a notation
that nothing in the machine reads (log 19). -/

namespace Sys2Proof.Machine

/-- A hexadecimal digit, capital letters (R73). -/
def hexDigit (n : Nat) : Char :=
  ['0', '1', '2', '3', '4', '5', '6', '7', '8', '9', 'A', 'B', 'C', 'D', 'E', 'F'].getD (n % 16) '0'

/-- A byte as two hex digits "without `0x`" (R73). -/
def hexByte (b : Byte) : List Char := [hexDigit (b.toNat / 16), hexDigit b.toNat]

/-- Bytes as hex pairs with a separator between them. -/
def hexBytes (sep : List Char) : List Byte → List Char
  | []      => []
  | [b]     => hexByte b
  | b :: bs => hexByte b ++ sep ++ hexBytes sep bs

/-- The separator of operands and of payload lists (R72). -/
def commaSep : List Char := [',', ' ']

/-- A byte list in brackets, `[]` when empty (R72). -/
def bracketed (bs : List Byte) : List Char := ['['] ++ hexBytes commaSep bs ++ [']']

/-- The command syntax of R72. -/
def commandText : Instr → List Char
  | .encBlk sym  => "ENC_BLK ".toList ++ hexBytes commaSep sym.toList
  | .decBlk blk  => "DEC_BLK ".toList ++ hexBytes commaSep blk.toList
  | .encBuf data => "ENC_BUF ".toList ++ bracketed data
  | .decBuf data => "DEC_BUF ".toList ++ bracketed data

/-- A command's encoding, `OP=0bxx LEN=n payload=<hex bytes>` (R72); a block command has no `LEN`. -/
def encodingText (i : Instr) : List Char :=
  let f := encode i
  let bit (b : Bool) : Char := if b then '1' else '0'
  let len := match f.len with
    | none   => []
    | some n => "LEN=".toList ++ Nat.toDigits 10 n ++ [' ']
  "OP=0b".toList ++ [bit f.buf, bit f.dir, ' '] ++ len ++ "payload=".toList ++ hexBytes [' '] f.payload

/-- The name of a status (R62). -/
def statusText : Status → List Char
  | .ok              => "OK".toList
  | .invalidLength   => "INVALID_LENGTH".toList
  | .invalidCodeword => "INVALID_CODEWORD".toList

/-- A response, `-> STATUS [p0, p1, ...]` (R72). -/
def responseText (r : Response) : List Char :=
  "-> ".toList ++ statusText r.status ++ [' '] ++ bracketed r.payload

end Sys2Proof.Machine
end

