-- ==== Sys2Proof/Tests/Slice0.lean ====
section
/-! SUPPORT. Tests from the spec's own vectors (95_test_vectors.md) and from hand calculation, each one
step or one operation; and for each statement with hypotheses a witness that meets them all. -/

namespace Sys2Proof.Tests

open Sys2Proof.Machine

/-! ### Helpers -/

/-- The response a result has just delivered. -/
def lastResponse : Result → Option Response
  | .next t => t.log.getLast?.map Prod.snd
  | _       => none

/-- The slot after a result. -/
def slotAfter : Result → Option Slot
  | .next t => some t.slot
  | _       => none

/-- The reference table with a chosen `LEN_MAX`. -/
def cfgOf (lenMax : Nat) : Config := ⟨fwdEfm, lenMax⟩

/-- An idle codec of that configuration whose one requester holds the commands. -/
def idleWith (lenMax : Nat) (cmds : List Instr) : State :=
  { State.reset with cfg := cfgOf lenMax, ports := [cmds.map encode] }

/-- A codec of that configuration that has accepted a command. -/
def busyWith (lenMax : Nat) (cmd : Instr) : State :=
  { State.reset with cfg := cfgOf lenMax, slot := .busy cmd }

/-- A table that gives every symbol one codeword (C2, N10). -/
def flatState : State := { State.reset with cfg := ⟨Vector.replicate 256 0, 64⟩ }

/-- Scenario A's symbols (vector S-A, from the source). -/
def symA : Vector Byte 8 := #v[0x01, 0x23, 0x45, 0x67, 0x89, 0xAB, 0xCD, 0xEF]

/-- An idle codec at which two requesters hold a command each, a buffer of exactly `LEN_MAX` bytes among them. -/
def twoRequesters : State :=
  { State.reset with cfg := cfgOf 1, ports := [[encode (.encBuf [0x07])], [encode (.encBlk symA)]] }

/-- Scenario A's block (vector S-A). -/
def blkA : Vector Byte 14 :=
  #v[0x84, 0x00, 0x92, 0x00, 0x09, 0x09, 0x22, 0x81, 0x06, 0x24, 0x90, 0x40, 0x49, 0x04]

/-- Scenario A's block with only lane 7 invalid (vector D4). -/
def blkBad : Vector Byte 14 :=
  #v[0x84, 0x00, 0x92, 0x00, 0x09, 0x09, 0x22, 0x81, 0x06, 0x24, 0x90, 0x40, 0x49, 0x05]

/-! ### WellFormed: each check refuses an ill-formed term (R57) -/

theorem test_wellFormed_refuses_long_encBuf :
    (Instr.encBuf (List.replicate 9 0)).wellFormed (cfgOf 8) = false := by decide +kernel

theorem test_wellFormed_refuses_long_decBuf :
    (Instr.decBuf (List.replicate 15 0)).wellFormed (cfgOf 14) = false := by decide +kernel

/-! ### Decoding: words written out from R57, R58 and the encodings of program P1 -/

/-- `OP=0b00 payload=45 46 4D 2D 47 4F 21 0A` (P1, command 1). -/
theorem test_decode_encBlk :
    decode ⟨0b00, none, [0x45, 0x46, 0x4D, 0x2D, 0x47, 0x4F, 0x21, 0x0A]⟩
      = .ok (.encBlk #v[0x45, 0x46, 0x4D, 0x2D, 0x47, 0x4F, 0x21, 0x0A]) := by rfl

/-- `OP=0b01 payload=84 00 92 ...` (vector D2). -/
theorem test_decode_decBlk :
    decode ⟨0b01, none,
      [0x84, 0x00, 0x92, 0x00, 0x09, 0x09, 0x22, 0x81, 0x06, 0x24, 0x90, 0x40, 0x49, 0x04]⟩
      = .ok (.decBlk blkA) := by rfl

/-- `OP=0b10 LEN=1 payload=07` (vector B2). -/
theorem test_decode_encBuf : decode ⟨0b10, some 1, [0x07]⟩ = .ok (.encBuf [0x07]) := by rfl

/-- `OP=0b11 LEN=1 payload=FF` (vector B14). -/
theorem test_decode_decBuf : decode ⟨0b11, some 1, [0xFF]⟩ = .ok (.decBuf [0xFF]) := by rfl

/-- R58: a block command with a wrong length cannot be written. -/
theorem test_decode_refuses_short_block : decode ⟨0b00, none, [0x45]⟩ = .error .blockPayloadLength := by rfl

/-- R60: a block command carries no `LEN`. -/
theorem test_decode_refuses_block_with_len :
    decode ⟨0b00, some 8, List.replicate 8 0⟩ = .error .blockWithLen := by rfl

/-- R60: a buffer command carries its `LEN`. -/
theorem test_decode_refuses_buffer_without_len : decode ⟨0b11, none, []⟩ = .error .bufferWithoutLen := by rfl

/-- R58: `LEN = len(data)`. -/
theorem test_decode_refuses_wrong_len : decode ⟨0b10, some 2, [0x07]⟩ = .error .bufferLenMismatch := by rfl

/-! ### Tables (vectors T2, T6, T7; R40(f)) -/

theorem test_fwd_last_symbol : romReadFwd fwdEfm 0xFF = 0x0812 := by decide +kernel

theorem test_rev_all_ones_invalid : romReadRev fwdEfm 0x3FFF = .invalid := by decide +kernel

theorem test_rev_one_bit_away : romReadRev fwdEfm 0x1221 = .valid 0x80 := by decide +kernel

/-- C2: with one codeword for every symbol "the later symbol" wins. -/
theorem test_rev_later_symbol_wins : romReadRev flatState.cfg.fwd 0 = .valid 0xFF := by decide +kernel

/-- R40(f): "1268 pairs (s, bit) exist where flipping one bit of `FWD_EFM[s]` gives another valid codeword". -/
theorem test_one_bit_pairs :
    let image := fwdEfmList.foldl (fun m c => m ||| 1 <<< c.toNat) 0
    (fwdEfmList.map fun c => ((List.range 14).filter fun b => image.testBit (c.toNat ^^^ 1 <<< b)).length).sum
      = 1268 := by decide +kernel

/-! ### The window (S-A's H and L, from the source) -/

theorem test_scenario_a_window :
    (windowHigh (encodeWindow fwdEfm symA), windowLow (encodeWindow fwdEfm symA))
      = (145137984342281, 2486275223393945860) := by decide +kernel

/-! ### The commands -/

/-- S-A. -/
theorem test_encBlk_scenario_a :
    lastResponse (exec (.encBlk symA) State.reset) = some ⟨.ok, blkA.toList⟩ := by decide +kernel

/-- E7: S-A reversed, lane order matters. -/
theorem test_encBlk_lane_order :
    lastResponse (exec (.encBlk #v[0xEF, 0xCD, 0xAB, 0x89, 0x67, 0x45, 0x23, 0x01]) State.reset)
      = some ⟨.ok,
          [0x24, 0x10, 0x10, 0x18, 0x92, 0x60, 0x41, 0x24, 0x88, 0x02, 0x42, 0x48, 0x21, 0x00]⟩ := by
  decide +kernel

/-- D6: S-A with one bit changed decodes to another symbol, undetected (R86). -/
theorem test_decBlk_undetected_error :
    lastResponse (exec (.decBlk
        #v[0x04, 0x00, 0x92, 0x00, 0x09, 0x09, 0x22, 0x81, 0x06, 0x24, 0x90, 0x40, 0x49, 0x04]) State.reset)
      = some ⟨.ok, [0x30, 0x23, 0x45, 0x67, 0x89, 0xAB, 0xCD, 0xEF]⟩ := by decide +kernel

/-- D4: only lane 7 invalid, no valid lane exposed (R83). -/
theorem test_decBlk_one_invalid_lane :
    lastResponse (exec (.decBlk blkBad) State.reset) = some ⟨.invalidCodeword, [0, 0, 0, 0, 0, 0, 0, 0]⟩ := by
  decide +kernel

/-- B4: one full chunk does not rescue length 9 (R90). -/
theorem test_encBuf_length_nine :
    lastResponse (exec (.encBuf (List.replicate 9 0)) State.reset) = some ⟨.invalidLength, []⟩ := by
  decide +kernel

/-- B5: two chunks, E1 then E2. -/
theorem test_encBuf_two_chunks :
    lastResponse (exec (.encBuf (List.replicate 8 0x00 ++ List.replicate 8 0xFF)) State.reset)
      = some ⟨.ok,
          [0x48, 0x81, 0x22, 0x04, 0x88, 0x12, 0x20, 0x48, 0x81, 0x22, 0x04, 0x88, 0x12, 0x20,
           0x20, 0x48, 0x81, 0x22, 0x04, 0x88, 0x12, 0x20, 0x48, 0x81, 0x22, 0x04, 0x88, 0x12]⟩ := by
  decide +kernel

/-- B8: the length is checked before the codewords (R104). -/
theorem test_decBuf_length_first :
    lastResponse (exec (.decBuf (List.replicate 13 0)) State.reset) = some ⟨.invalidLength, []⟩ := by
  decide +kernel

/-- B11: chunk 1 bad, chunk 0's symbols are discarded (R95). -/
theorem test_decBuf_discards_earlier_chunk :
    lastResponse (exec (.decBuf (blkA.toList ++ List.replicate 14 0xFF)) State.reset)
      = some ⟨.invalidCodeword, []⟩ := by decide +kernel

/-- R97: a buffer longer than `LEN_MAX` has no step. -/
theorem test_over_lenMax_stuck :
    lastResponse (exec (.encBuf (List.replicate 8 0)) (busyWith 7 (.encBuf (List.replicate 8 0)))) = none := by
  decide +kernel

/-! ### A step -/

/-- Log 13: from reset, the step after each table word runs its command with zero operands (vector D3 for
DEC_BLK, S-C for the buffers). -/
theorem test_fetch_decBlk : lastResponse (step (State.reset.withFetchWord 8 0b01))
    = some ⟨.invalidCodeword, [0, 0, 0, 0, 0, 0, 0, 0]⟩ := by decide +kernel

theorem test_fetch_encBuf : lastResponse (step (State.reset.withFetchWord 8 0b10)) = some ⟨.ok, []⟩ := by
  decide +kernel

theorem test_fetch_decBuf : lastResponse (step (State.reset.withFetchWord 8 0b11)) = some ⟨.ok, []⟩ := by
  decide +kernel

/-- E1. -/
theorem test_fetch_encBlk : lastResponse (step (State.reset.withFetchWord 8 0b00))
    = some ⟨.ok, [0x48, 0x81, 0x22, 0x04, 0x88, 0x12, 0x20, 0x48, 0x81, 0x22, 0x04, 0x88, 0x12, 0x20]⟩ := by
  decide +kernel

/-- R25: an idle codec accepts a held command. -/
theorem test_idle_accepts :
    slotAfter (step (present State.reset 0 (encode (.encBlk symA)))) = some (.busy (.encBlk symA)) := by
  decide +kernel

/-- R31, R105: a response after an error and a reset is its own command's. -/
theorem test_reset_then_command :
    lastResponse (step (loadSlot (hostReset false (busyWith 64 (.decBlk blkBad))) (.encBlk symA)))
      = some ⟨.ok, blkA.toList⟩ := by decide +kernel

/-! ### Text (R72; P1 command 1, vectors B2 and S-C) -/

theorem test_command_text : commandText (.encBuf [0x07, 0xAB]) = "ENC_BUF [07, AB]".toList := by decide +kernel

theorem test_encoding_text :
    encodingText (.encBlk #v[0x45, 0x46, 0x4D, 0x2D, 0x47, 0x4F, 0x21, 0x0A])
      = "OP=0b00 payload=45 46 4D 2D 47 4F 21 0A".toList := by decide +kernel

theorem test_response_text : responseText ⟨.invalidLength, []⟩ = "-> INVALID_LENGTH []".toList := by
  decide +kernel

/-! ### Witnesses: the hypotheses of each statement can be met together -/

theorem injective_cfgOf (lenMax : Nat) : InjectiveFwd (cfgOf lenMax) :=
  (admitted_iff_injectiveFwd _).1 (show distinctFrom 0 fwdEfmList = true by decide +kernel)

theorem not_injective_flat : ¬ InjectiveFwd flatState.cfg :=
  fun h => absurd (h 0 1 (by decide +kernel)) (by decide)

theorem wellFormed_buf {lenMax : Nat} {d : List Byte} (h : d.length ≤ lenMax) :
    (Instr.encBuf d).wellFormed (cfgOf lenMax) = true ∧ (Instr.decBuf d).wellFormed (cfgOf lenMax) = true :=
  ⟨decide_eq_true h, decide_eq_true h⟩

theorem exec_completes {s : State} {cmd : Instr} (hi : InjectiveFwd s.cfg) (hw : cmd.wellFormed s.cfg = true) :
    ∃ t, exec cmd s = .next t := ⟨_, exec_eq_next_iff.2 ⟨(admitted_iff_injectiveFwd _).2 hi, hw, rfl⟩⟩

/-- Every command completes from a busy codec, a buffer of exactly `LEN_MAX` bytes among them. -/
theorem step_busyWith (lenMax : Nat) (cmd : Instr) (h : cmd.wellFormed (cfgOf lenMax) = true) :
    step (busyWith lenMax cmd) = .next (deliver (busyWith lenMax cmd) cmd (response (cfgOf lenMax) cmd)) :=
  exec_eq_next_iff.2 ⟨(admitted_iff_injectiveFwd _).2 (injective_cfgOf lenMax), h, rfl⟩

theorem witness_ResetAbandonsBusyCommand : ∃ (s : State) (cmd : Instr), s.slot = .busy cmd :=
  ⟨busyWith 64 (.encBlk symA), .encBlk symA, rfl⟩

/-- A busy codec at which the one waiting requester's command decodes and fits. -/
theorem witness_ResetAndBootOrder : ∃ s : State, InjectiveFwd s.cfg ∧ s.slot = .busy (.encBlk symA) ∧
    (∃ p, portQueue s p ≠ []) ∧
    ∀ p f, (portQueue s p).head? = some f → ∃ cmd, decode f = .ok cmd ∧ cmd.wellFormed s.cfg = true := by
  refine ⟨{ busyWith 1 (.encBlk symA) with ports := [[encode (.encBuf [0x07])]] }, injective_cfgOf _, rfl,
    ⟨0, by decide⟩, fun p f h => ?_⟩
  cases p with
  | zero => cases h; exact ⟨.encBuf [0x07], rfl, (wellFormed_buf (by decide)).1⟩
  | succ p => simp [portQueue] at h

theorem witness_IdleCodecWaits : ∃ s : State, InjectiveFwd s.cfg ∧ s.slot = .idle ∧ ∀ p, portQueue s p = [] :=
  ⟨State.reset, injective_cfgOf _, rfl, fun p => by simp [portQueue, State.reset]⟩

theorem witness_NoAcceptBeforeTables : ∃ s : State, InjectiveFwd s.cfg ∧ s.slot = .idle ∧
    s.tablesReady = false ∧ chooseRequester s = some 0 :=
  ⟨{ idleWith 64 [.encBlk symA] with tablesReady := false }, injective_cfgOf _, rfl, rfl, by decide +kernel⟩

/-- A buffer of exactly `LEN_MAX` bytes is held by the one requester. -/
theorem witness_StepRunsDecodedCommand_accept : ∃ (s : State) (p : Nat) (f : Frame) (rest : List Frame) (cmd : Instr),
    InjectiveFwd s.cfg ∧ s.slot = .idle ∧ s.tablesReady = true ∧ chooseRequester s = some p ∧
    portQueue s p = f :: rest ∧ decode f = .ok cmd ∧ cmd.wellFormed s.cfg = true :=
  ⟨idleWith 1 [.encBuf [0x07], .encBlk symA], 0, _, _, .encBuf [0x07], injective_cfgOf _, rfl, rfl,
    by decide +kernel, rfl, rfl, (wellFormed_buf (by decide)).1⟩

theorem witness_StepRunsDecodedCommand_word :
    decodeTableWord 8 0b10 = some (.encBuf []) ∧ (busyWith 64 (.encBlk symA)).slot = .busy (.encBlk symA) :=
  ⟨rfl, rfl⟩

/-- Two requesters wait. -/
theorem witness_StepRunsDecodedCommand_choice :
    portQueue twoRequesters 0 ≠ [] ∧ portQueue twoRequesters 1 ≠ [] := by decide

/-- A busy codec that holds a command, and a next state. -/
theorem witness_BusyCodecHoldsCommands : ∃ (s t : State) (cmd : Instr), s.slot = .busy cmd ∧
    portQueue s 0 ≠ [] ∧ step s = .next t := by
  let s : State := { busyWith 64 (.encBlk symA) with ports := [[encode (.encBuf [])]] }
  obtain ⟨t, h⟩ := exec_completes (s := s) (cmd := .encBlk symA) (injective_cfgOf 64) rfl
  exact ⟨s, t, .encBlk symA, rfl, by decide, h⟩

/-- Log 6: two commands that requester 3 presents to a codec with one queue join one queue, in order. -/
theorem test_present_new_requester :
    (present (present (idleWith 64 []) 3 (encode (.encBuf [0x01]))) 3 (encode (.encBuf [0x02]))).ports
      = [[], [], [], [encode (.encBuf [0x01]), encode (.encBuf [0x02])]] := by decide +kernel

theorem witness_NoCommandLostOrMerged : ∃ s t : State, s.slot = .busy (.encBlk symA) ∧ step s = .next t :=
  ⟨busyWith 64 (.encBlk symA), _, rfl, step_busyWith 64 _ rfl⟩

theorem witness_NoCommandLostOrMerged_accept :
    slotAfter (step (idleWith 64 [.encBlk symA])) = some (.busy (.encBlk symA)) := by decide +kernel

/-- At the boundary `len(data) = LEN_MAX`. -/
theorem witness_AcceptedCommandCompletes : ∃ (s : State) (cmd : Instr),
    InjectiveFwd s.cfg ∧ s.slot = .busy cmd ∧ cmd.wellFormed s.cfg = true :=
  ⟨busyWith 14 (.decBuf blkA.toList), _, injective_cfgOf _, rfl, (wellFormed_buf (by decide)).2⟩

theorem witness_ProgramRunsInOrder : ∃ (s : State) (cmds : List Instr), InjectiveFwd s.cfg ∧ s.slot = .idle ∧
    s.tablesReady = true ∧ s.ports = [cmds.map encode] ∧ cmds.length = 2 ∧
    ∀ cmd ∈ cmds, cmd.wellFormed s.cfg = true :=
  ⟨idleWith 64 [.encBlk symA, .decBlk blkBad], _, injective_cfgOf _, rfl, rfl, rfl, rfl, by decide +kernel⟩

theorem witness_SeveralRequestersAreServed : ∃ (s : State) (queues : List (List Instr)),
    InjectiveFwd s.cfg ∧ s.slot = .idle ∧ s.tablesReady = true ∧ s.ports = queues.map (fun q => q.map encode) ∧
    queues.length = 2 ∧ ∀ q ∈ queues, ∀ cmd ∈ q, cmd.wellFormed s.cfg = true :=
  ⟨twoRequesters, [[.encBuf [0x07]], [.encBlk symA]], injective_cfgOf _, rfl, rfl, rfl, rfl, by decide +kernel⟩

theorem witness_InstancesAreIndependent : ∃ m', stepInstance 0 [busyWith 64 (.encBlk symA), State.reset] = .next m' :=
  ⟨_, by
    have h := step_busyWith 64 (.encBlk symA) rfl
    simp only [stepInstance, List.getElem?_cons_zero, h]
    rfl⟩

/-- The second of two instances, its own step answered. -/
theorem witness_InstancesAreIndependent_unblocked : ∃ (m : List State) (s t : State),
    m[1]? = some s ∧ step s = .next t :=
  ⟨[State.reset, busyWith 64 (.encBlk symA)], busyWith 64 (.encBlk symA), _, rfl, step_busyWith 64 _ rfl⟩

theorem witness_DecodeAndEncodeAgree : ∃ f cmd, decode f = .ok cmd := ⟨⟨0b10, some 0, []⟩, .encBuf [], rfl⟩

theorem witness_RevInvertsInjectiveFwd : ∃ cfg, InjectiveFwd cfg := ⟨cfgOf 64, injective_cfgOf 64⟩

theorem witness_NonInjectiveTableRefused : ∃ s : State, ¬ InjectiveFwd s.cfg := ⟨flatState, not_injective_flat⟩

theorem witness_TablesNeverChange : ∃ s t : State, exec (.encBlk symA) s = .next t ∧ step s = .next t := by
  obtain ⟨t, h⟩ := exec_completes (s := busyWith 64 (.encBlk symA)) (cmd := .encBlk symA) (injective_cfgOf 64) rfl
  exact ⟨_, t, h, h⟩

theorem witness_CodewordsAcrossBytes : ∃ cw b, serialize (packWindow cw) = b := ⟨Vector.replicate 8 0x0020, _, rfl⟩

theorem witness_EncBlkInjective : ∃ a b, InjectiveFwd (cfgOf 64) ∧
    response (cfgOf 64) (.encBlk a) = response (cfgOf 64) (.encBlk b) := ⟨symA, symA, injective_cfgOf 64, rfl⟩

/-- EncBlkEncodes, DecBlkDecodes: an admitted configuration; both outcomes of DEC_BLK occur. -/
theorem witness_DecBlkDecodes_valid : InjectiveFwd (cfgOf 64) ∧
    ∀ i : Fin 8, romReadRev (cfgOf 64).fwd ((parse blkA).extractLsb' (98 - 14 * i.val) 14) = .valid symA[i] :=
  ⟨injective_cfgOf 64, by decide +kernel⟩

theorem witness_DecBlkDecodes_invalid : InjectiveFwd (cfgOf 64) ∧
    romReadRev (cfgOf 64).fwd ((parse blkBad).extractLsb' (98 - 14 * 7) 14) = .invalid :=
  ⟨injective_cfgOf 64, by decide +kernel⟩

/-- At the boundary: 9 bytes under `LEN_MAX = 9`, no multiple of 8. -/
theorem witness_EncBufChecksLength : ∃ (s : State) (d : List Byte),
    InjectiveFwd s.cfg ∧ d.length ≤ s.cfg.lenMax ∧ d.length % 8 ≠ 0 :=
  ⟨busyWith 9 (.encBuf []), List.replicate 9 0, injective_cfgOf 9, by decide, by decide⟩

/-- At the boundaries: 8 bytes under `LEN_MAX = 8`, and the empty buffer under `LEN_MAX = 0`. -/
theorem witness_EncBufConcatenatesBlocks : ∃ (s : State) (d : List Byte),
    InjectiveFwd s.cfg ∧ d.length ≤ s.cfg.lenMax ∧ d.length % 8 = 0 ∧ d ≠ [] :=
  ⟨busyWith 8 (.encBuf []), symA.toList, injective_cfgOf 8, by decide, by decide, by decide⟩

theorem witness_EncBufConcatenatesBlocks_empty : ∃ s : State,
    InjectiveFwd s.cfg ∧ ([] : List Byte).length ≤ s.cfg.lenMax ∧ ([] : List Byte).length % 8 = 0 :=
  ⟨busyWith 0 (.encBuf []), injective_cfgOf 0, by decide, by decide⟩

theorem witness_DecBufChecksLength : ∃ (s : State) (d : List Byte),
    InjectiveFwd s.cfg ∧ d.length ≤ s.cfg.lenMax ∧ d.length % 14 ≠ 0 :=
  ⟨busyWith 15 (.decBuf []), List.replicate 15 0, injective_cfgOf 15, by decide, by decide⟩

/-- At the boundary: two chunks under `LEN_MAX = 28`, one that decodes and one that does not. -/
theorem witness_DecBufAllOrNothing : ∃ (s : State) (good bad : Vector Byte 14),
    InjectiveFwd s.cfg ∧ (good.toList ++ bad.toList).length ≤ s.cfg.lenMax ∧
    (good.toList ++ bad.toList).length % 14 = 0 ∧
    (response s.cfg (.decBlk good)).status = .ok ∧ (response s.cfg (.decBlk bad)).status = .invalidCodeword :=
  ⟨busyWith 28 (.decBuf []), blkA, blkBad, injective_cfgOf 28, by decide, by decide, by decide +kernel,
    by decide +kernel⟩

/-- At the boundary: 8 bytes whose 14-byte encoding is exactly `LEN_MAX`. -/
theorem witness_BufferRoundTrip : ∃ (s : State) (d : List Byte), InjectiveFwd s.cfg ∧ d.length % 8 = 0 ∧
    d.length ≤ s.cfg.lenMax ∧ d.length / 8 * 14 ≤ s.cfg.lenMax :=
  ⟨busyWith 14 (.encBuf []), symA.toList, injective_cfgOf 14, by decide, by decide, by decide⟩

/-- BlockCommandsAreInverse, BufferAgreesWithBlock: both statuses of DEC_BLK occur. -/
theorem witness_BufferAgreesWithBlock :
    (response (cfgOf 64) (.decBlk blkA)).status = .ok ∧
    (response (cfgOf 64) (.decBlk blkBad)).status = .invalidCodeword := by decide +kernel

/-- One byte over `LEN_MAX`, held by the one requester of an idle codec: DEC_BUF. -/
theorem witness_OverLenMaxHasNoStep_decBuf : ∃ (s : State) (d : List Byte) (p : Nat) (rest : List Frame),
    InjectiveFwd s.cfg ∧ s.cfg.lenMax < d.length ∧ s.slot = .idle ∧ s.tablesReady = true ∧
    chooseRequester s = some p ∧ portQueue s p = encode (.decBuf d) :: rest :=
  ⟨idleWith 13 [.decBuf blkA.toList], blkA.toList, 0, [], injective_cfgOf 13, by decide, rfl, rfl,
    by decide +kernel, rfl⟩

/-- One byte over `LEN_MAX`, held by the one requester of an idle codec: ENC_BUF. -/
theorem witness_OverLenMaxHasNoStep : ∃ (s : State) (d : List Byte) (p : Nat) (rest : List Frame),
    InjectiveFwd s.cfg ∧ s.cfg.lenMax < d.length ∧ s.slot = .idle ∧ s.tablesReady = true ∧
    chooseRequester s = some p ∧ portQueue s p = encode (.encBuf d) :: rest :=
  ⟨idleWith 7 [.encBuf symA.toList], symA.toList, 0, [], injective_cfgOf 7, by decide, rfl, rfl, by decide +kernel, rfl⟩

/-- Two codecs of one configuration with different slots and histories. -/
theorem witness_SameCommandSameResponse : ∃ s s' t t' : State, s.slot ≠ s'.slot ∧ s.cfg = s'.cfg ∧
    exec (.encBlk symA) s = .next t ∧ exec (.encBlk symA) s' = .next t' := by
  obtain ⟨t, h⟩ := exec_completes (s := busyWith 64 (.encBlk symA)) (cmd := .encBlk symA) (injective_cfgOf 64) rfl
  obtain ⟨t', h'⟩ := exec_completes (s := busyWith 64 (.decBlk blkA)) (cmd := .encBlk symA) (injective_cfgOf 64) rfl
  exact ⟨busyWith 64 (.encBlk symA), busyWith 64 (.decBlk blkA), t, t', by simp [busyWith], rfl, h, h'⟩

theorem witness_StepKeepsInvariant : ∃ s t : State, State.Inv s ∧ step s = .next t :=
  ⟨busyWith 64 (.encBlk symA), _, ⟨injective_cfgOf 64, fun cmd h => by cases h; exact ⟨rfl, rfl⟩, fun e h => by cases h⟩,
    step_busyWith 64 _ rfl⟩

theorem witness_HostKeepsInvariant : ∃ s : State, State.Inv s :=
  ⟨busyWith 64 (.encBlk symA), injective_cfgOf 64, fun cmd h => by cases h; exact ⟨rfl, rfl⟩, fun e h => by cases h⟩

end Sys2Proof.Tests
end

/-! PROOFS. The statements of 20_memory.md: what REV holds for any FWD (R36), and that nothing writes the
tables (R56). -/

namespace Sys2Proof.Machine

/-- The table's list of codewords, read at a symbol's index, is the forward read of that symbol (R34). -/
theorem getElem_toList_eq_romReadFwd (fwd : Vector Bits14 256) (s : Byte) (h : s.toNat < fwd.toList.length) :
    fwd.toList[s.toNat] = romReadFwd fwd s := by
  simp [romReadFwd]

/-- Every symbol is an index of the table's list (R34). -/
theorem toNat_lt_length_fwd (fwd : Vector Bits14 256) (s : Byte) : s.toNat < fwd.toList.length := by
  simpa using s.isLt

/-- Every index of the table's list is a symbol (R34). -/
theorem exists_toNat_eq_of_lt_length_fwd {fwd : Vector Bits14 256} {i : Nat} (h : i < fwd.toList.length) :
    ∃ s : Byte, s.toNat = i :=
  ⟨BitVec.ofNatLT i (by simpa using h), BitVec.toNat_ofNatLT ..⟩

/-- R36, read through the ROM: as the indices of the table's list are the symbols, the last index of an address
among the codewords is its last symbol. -/
theorem romReadRev_eq_valid_iff (fwd : Vector Bits14 256) (c : Bits14) (e : Byte) :
    romReadRev fwd c = .valid e ↔
      romReadFwd fwd e = c ∧ ∀ s : Byte, romReadFwd fwd s = c → s.toNat ≤ e.toNat := by
  have hindex := toNat_lt_length_fwd fwd
  have hread (s : Byte) := getElem_toList_eq_romReadFwd fwd s (hindex s)
  rw [romReadRev_eq_buildRev, buildRev_eq_buildList, buildList_eq_valid_iff]
  constructor
  · rintro ⟨i, hi, hc, he, hlast⟩
    obtain ⟨e, rfl⟩ := exists_toNat_eq_of_lt_length_fwd hi
    obtain rfl : e = _ := by simpa using he
    refine ⟨(hread e).symm.trans hc, fun s hs => Nat.not_lt.1 fun hlater => ?_⟩
    exact hlast s.toNat (hindex s) hlater ((hread s).trans hs)
  · rintro ⟨hc, hlast⟩
    refine ⟨e.toNat, hindex e, (hread e).trans hc, by simp, fun j hj hlater hjc => ?_⟩
    obtain ⟨s, rfl⟩ := exists_toNat_eq_of_lt_length_fwd hj
    exact Nat.not_lt.2 (hlast s ((hread s).symm.trans hjc)) hlater

/-- R56: a command writes neither the tables nor `LEN_MAX`. -/
theorem exec_next_cfg {cmd : Instr} {s t : State} (h : exec cmd s = .next t) : t.cfg = s.cfg := by
  obtain ⟨-, -, rfl⟩ := exec_eq_next_iff.1 h
  exact deliver_cfg ..

/-- R56: a step, delivering, waiting or accepting, writes neither the tables nor `LEN_MAX`. -/
theorem step_next_cfg {s t : State} (h : step s = .next t) : t.cfg = s.cfg := by
  obtain ⟨-, ⟨cmd, -, -, rfl⟩ | ⟨-, rfl⟩ | ⟨-, p, f, cmd, -, -, -, -, -, rfl⟩⟩ := step_eq_next h
  · exact deliver_cfg ..
  · rfl
  · exact accepted_cfg ..

/-- Settles O16: the last index of an address in the ascending build is its last symbol. -/
theorem laterSymbolWinsInRev : Obligations.LaterSymbolWinsInRev := romReadRev_eq_valid_iff

/-- Settles O20: from what a command and a step can do, and the frame of each of the host's operations. -/
theorem tablesNeverChange : Obligations.TablesNeverChange :=
  ⟨fun _ _ _ => exec_next_cfg, fun _ _ => step_next_cfg, fun s ramTables => hostReset_cfg s ramTables,
    present_cfg, tablesLoaded_cfg⟩

end Sys2Proof.Machine

/-! PROOFS. The statements of 30_encoding.md: the stored REV entry (R68), the window and its serialization (R64,
R65), the flat buses (R59), the status codes (R62) and the response payloads (R63). -/

namespace Sys2Proof.Machine

/-! ### The stored REV entry (R68) -/

/-- Different entries are stored in different nine bits. -/
theorem revEntryBits_injective : Function.Injective revEntryBits :=
  Function.LeftInverse.injective revEntryOfBits_revEntryBits

/-- The ROM reads an entry exactly where it stores that entry's nine bits. -/
theorem romReadRev_eq_iff_revRom_eq (fwd : Vector Bits14 256) (c : Bits14) (e : RevEntry) :
    romReadRev fwd c = e ↔ revRom fwd c = revEntryBits e := by
  rw [romReadRev_eq_buildRev, revRom, Function.Injective.eq_iff revEntryBits_injective]

/-- "Only the valid bit decides validity" (R68), also for nine bits that no entry is stored as. -/
theorem revEntryOfBits_eq_invalid_iff (b : BitVec 9) : revEntryOfBits b = .invalid ↔ b.getLsbD 8 = false := by
  unfold revEntryOfBits
  cases b.getLsbD 8 with
  | false => exact iff_of_true rfl rfl
  | true => exact iff_of_false nofun nofun

/-- Settles O18: the nine stored bits determine the entry, and reading any nine bits branches on the valid bit. -/
theorem revEntryNineBits : Obligations.RevEntryNineBits :=
  ⟨fun fwd c s => romReadRev_eq_iff_revRom_eq fwd c (.valid s),
    fun fwd c => romReadRev_eq_iff_revRom_eq fwd c .invalid, revEntryOfBits_eq_invalid_iff⟩

/-! ### The window and its serialization (R64, R65) -/

/-- Bits 111-14i to 98-14i of a packed window are codeword i (R64). -/
theorem extractLsb'_packWindow (cw : Vector Bits14 8) (i : Fin 8) :
    (packWindow cw).extractLsb' (98 - 14 * i.val) 14 = cw[i] := by
  rw [← windowField_eq_extractLsb', windowField_packWindow]

/-- Settles O22: the fields do not overlap and cover the window. -/
theorem windowHoldsEightFields : Obligations.WindowHoldsEightFields :=
  ⟨extractLsb'_packWindow, windowField_eq_extractLsb', packWindow_windowFields⟩

/-- A block parses to the window whose bytes are its own, and to no other (R65). -/
theorem parse_eq_iff_bytes {b : Vector Byte 14} {w : Bits112} :
    parse b = w ↔ ∀ k : Fin 14, b[k] = w.extractLsb' (104 - 8 * k.val) 8 := by
  constructor
  · rintro rfl k
    exact (byte_of_parse b k).symm
  · exact parse_eq_of_bytes

/-- Serializing and parsing are inverse to each other (R65). -/
theorem serialize_eq_iff_parse_eq {w : Bits112} {b : Vector Byte 14} : serialize w = b ↔ parse b = w := by
  constructor
  · rintro rfl
    exact parse_serialize w
  · rintro rfl
    exact serialize_parse b

/-- Settles O23: the bytes determine what a block parses to, and serializing is the inverse of parsing. -/
theorem blockAndWindowDetermineEachOther : Obligations.BlockAndWindowDetermineEachOther :=
  fun _ _ => ⟨Iff.trans serialize_eq_iff_parse_eq parse_eq_iff_bytes, parse_eq_iff_bytes⟩

/-! ### The flat buses (R59) -/

/-- Lane i of the symbol bus is its bits 63-8i to 56-8i. -/
theorem getElem_symOfBus (b : Bits64) (i : Fin 8) : (symOfBus b)[i] = b.extractLsb' (56 - 8 * i.val) 8 :=
  Vector.getElem_ofFn i.isLt

/-- Every bit of the symbol bus lies in some lane. -/
theorem busLane_cover (j : Nat) (h : j < 64) : ∃ i : Fin 8, 56 - 8 * i.val ≤ j ∧ j < 56 - 8 * i.val + 8 :=
  ⟨⟨7 - j / 8, by omega⟩, by simp only; omega, by simp only; omega⟩

/-- Unpacking a packed symbol bus gives the lanes back. -/
theorem symOfBus_busOfSym (s : Vector Byte 8) : symOfBus (busOfSym s) = s := by
  apply Vector.ext
  intro i hi
  exact (getElem_symOfBus (busOfSym s) ⟨i, hi⟩).trans (lane_of_busOfSym s ⟨i, hi⟩)

/-- Packing the lanes of a symbol bus gives the bus back. -/
theorem busOfSym_symOfBus (b : Bits64) : busOfSym (symOfBus b) = b := by
  refine eq_of_fields (fun i : Fin 8 => 56 - 8 * i.val) busLane_cover fun i => ?_
  rw [lane_of_busOfSym, getElem_symOfBus]

/-- Byte k of a serialized window is its bits 111-8k to 104-8k (R65). -/
theorem getElem_serialize (w : Bits112) (k : Fin 14) : (serialize w)[k] = w.extractLsb' (104 - 8 * k.val) 8 :=
  Vector.getElem_ofFn k.isLt

/-- Settles O25: the codeword buses are the window of R65, and the lanes of the symbol bus cover it without
overlap. -/
theorem flatBusViews : Obligations.FlatBusViews :=
  ⟨getElem_symOfBus, lane_of_busOfSym, symOfBus_busOfSym, busOfSym_symOfBus, getElem_serialize, byte_of_parse,
    parse_encodeBlock, parse_serialize⟩

/-! ### The response payloads (R63) -/

/-- A concatenation of `n`-byte blocks has `n` bytes for each of them. -/
theorem length_flatten_toList {n : Nat} (vs : List (Vector Byte n)) :
    (vs.map Vector.toList).flatten.length = vs.length * n := by
  induction vs with
  | nil => exact (Nat.zero_mul n).symm
  | cons v vs ih =>
    rw [List.map_cons, List.flatten_cons, List.length_append, Vector.length_toList, ih, List.length_cons,
      Nat.succ_mul, Nat.add_comm]

/-- The encoding loop over `n` chunks yields 14 bytes for each (R91). -/
theorem length_encChunks (fwd : Vector Bits14 256) (data : List Byte) (n : Nat) :
    (encChunks fwd data (List.range n) []).length = n * 14 := by
  have h := length_flatten_toList ((List.range n).map fun j => encodeBlock fwd (chunk 8 j data))
  rw [List.map_map, List.length_map, List.length_range] at h
  rw [encChunks_eq]
  exact h

/-- A decoding loop over `n` chunks that succeeds yields 8 bytes for each (R95). -/
theorem length_of_decChunks_eq_some {fwd : Vector Bits14 256} {data out : List Byte} {n : Nat}
    (h : decChunks fwd data (List.range n) [] = some out) : out.length = n * 8 := by
  obtain ⟨syms, hsyms, rfl⟩ := (decChunks_eq_some_iff ..).1 h
  have hlen := congrArg List.length hsyms
  rw [List.length_map, List.length_map, List.length_range] at hlen
  rw [hlen]
  exact length_flatten_toList syms

/-- ENC_BLK answers `OK` with 14 bytes. -/
theorem encBlkResponse_payload (cfg : Config) (sym : Vector Byte 8) :
    (encBlkResponse cfg sym).status = .ok ∧ (encBlkResponse cfg sym).payload.length = 14 :=
  ⟨rfl, Vector.length_toList⟩

/-- DEC_BLK answers `OK` with eight bytes where the block decodes, and else INVALID_CODEWORD with eight zeros. -/
theorem decBlkResponse_payload (cfg : Config) (blk : Vector Byte 14) :
    ((decBlkResponse cfg blk).status = .ok ∧ (decBlkResponse cfg blk).payload.length = 8) ∨
      decBlkResponse cfg blk = ⟨.invalidCodeword, List.replicate 8 0⟩ := by
  unfold decBlkResponse
  cases decodeBlock cfg.fwd blk with
  | none => exact .inr rfl
  | some sym => exact .inl ⟨rfl, Vector.length_toList⟩

/-- ENC_BUF answers `OK` with 14 bytes per chunk of a buffer of whole chunks, and else INVALID_LENGTH with none. -/
theorem encBufResponse_payload (cfg : Config) (data : List Byte) :
    ((encBufResponse cfg data).status = .ok ∧
        (encBufResponse cfg data).payload.length = data.length / 8 * 14) ∨
      encBufResponse cfg data = ⟨.invalidLength, []⟩ := by
  unfold encBufResponse
  split
  · exact .inr rfl
  · exact .inl ⟨rfl, length_encChunks ..⟩

/-- DEC_BUF answers `OK` with 8 bytes per chunk where every chunk of a buffer of whole chunks decodes, and else an
error with no bytes. -/
theorem decBufResponse_payload (cfg : Config) (data : List Byte) :
    ((decBufResponse cfg data).status = .ok ∧
        (decBufResponse cfg data).payload.length = data.length / 14 * 8) ∨
      decBufResponse cfg data = ⟨.invalidLength, []⟩ ∨ decBufResponse cfg data = ⟨.invalidCodeword, []⟩ := by
  unfold decBufResponse
  split
  · exact .inr (.inl rfl)
  · cases h : decChunks cfg.fwd data (List.range (data.length / 14)) [] with
    | none => exact .inr (.inr rfl)
    | some out => exact .inl ⟨rfl, length_of_decChunks_eq_some h⟩

/-- Settles O39: the response's status and payload length, command by command. -/
theorem responsePayloads : Obligations.ResponsePayloads :=
  fun cfg => ⟨encBlkResponse_payload cfg, decBlkResponse_payload cfg, encBufResponse_payload cfg,
    decBufResponse_payload cfg⟩

/-! ### The codes of `STATUS` (R62) -/

/-- No status has the reserved code. -/
theorem statusBits_ne_reserved (st : Status) : statusBits st ≠ 0b11 := by
  cases st <;> decide

/-- A status's code reads back as the status (R70). -/
theorem statusOfBits_statusBits (st : Status) : statusOfBits (statusBits st) = some st := by
  cases st <;> rfl

/-- Settles O15: status by status, none with the reserved code and each read back from its own. -/
theorem statusCodes : Obligations.StatusCodes :=
  ⟨rfl, rfl, rfl, statusBits_ne_reserved, statusOfBits_statusBits, rfl⟩

end Sys2Proof.Machine

/-! PROOFS. The statement of 41_block_encode.md: what ENC_BLK delivers (R75, R78). -/

namespace Sys2Proof.Machine

/-- Delivering changes the observation and the slot, and leaves what the frame of a response names (R25, R99). -/
theorem delivers_deliver (s : State) (cmd : Instr) (r : Response) : Delivers s cmd r (deliver s cmd r) :=
  ⟨deliver_log .., deliver_slot .., deliver_cfg .., deliver_tablesReady .., deliver_ports ..⟩

/-- A well-formed command of an admitted configuration completes with its response delivered (R37, R99). -/
theorem exec_delivers {s : State} {cmd : Instr} (hfwd : InjectiveFwd s.cfg) (hwf : cmd.wellFormed s.cfg = true) :
    ∃ t, exec cmd s = .next t ∧ Delivers s cmd (response s.cfg cmd) t :=
  ⟨_, exec_eq_next_iff.2 ⟨(admitted_iff_injectiveFwd _).2 hfwd, hwf, rfl⟩, delivers_deliver ..⟩

/-- Bits 111-14i to 98-14i of the encoder's window are the codeword of lane i's symbol (R64, R75). -/
theorem extractLsb'_encodeWindow (fwd : Vector Bits14 256) (sym : Vector Byte 8) (i : Fin 8) :
    (encodeWindow fwd sym).extractLsb' (98 - 14 * i.val) 14 = romReadFwd fwd sym[i] := by
  rw [← windowField_eq_extractLsb', windowField_encodeWindow]

/-- Settles O26: a block command is well-formed for every configuration, so it completes, and its response is the
serialized window of its lanes' codewords. -/
theorem encBlkEncodes : Obligations.EncBlkEncodes := by
  intro s sym hfwd
  obtain ⟨t, hexec, hdelivers⟩ := exec_delivers (cmd := .encBlk sym) hfwd rfl
  exact ⟨encodeWindow s.cfg.fwd sym, encodeBlock s.cfg.fwd sym, t, extractLsb'_encodeWindow s.cfg.fwd sym,
    getElem_serialize (encodeWindow s.cfg.fwd sym), hexec, hdelivers⟩

end Sys2Proof.Machine

/-! PROOFS. The statements of 42_block_decode.md: what DEC_BLK delivers (R81, R83) and what its detector tests (R82). -/

namespace Sys2Proof.Machine

/-- An entry is `Invalid` exactly where its address is no symbol's codeword. This needs no injective `FWD`: of several
symbols with one codeword, the largest is what the entry holds (R36). -/
theorem romReadRev_eq_invalid_iff (fwd : Vector Bits14 256) (c : Bits14) :
    romReadRev fwd c = .invalid ↔ ∀ s : Byte, romReadFwd fwd s ≠ c := by
  constructor
  · intro hinvalid s hs
    have hne : (Finset.univ.filter fun t : Byte => romReadFwd fwd t = c).Nonempty := ⟨s, by simpa using hs⟩
    obtain ⟨e, he, hmax⟩ := Finset.exists_max_image _ BitVec.toNat hne
    have hvalid : romReadRev fwd c = .valid e :=
      (romReadRev_eq_valid_iff fwd c e).2 ⟨by simpa using he, fun t ht => hmax t (by simpa using ht)⟩
    exact nomatch hinvalid.symm.trans hvalid
  · intro hnone
    cases hentry : romReadRev fwd c with
    | invalid => rfl
    | valid e => exact absurd ((romReadRev_eq_valid_iff fwd c e).1 hentry).1 (hnone e)

/-- A block that decodes is answered `OK` with its symbols (R81). -/
theorem decBlkResponse_of_decodeBlock_eq_some {cfg : Config} {blk : Vector Byte 14} {sym : Vector Byte 8}
    (h : decodeBlock cfg.fwd blk = some sym) : decBlkResponse cfg blk = ⟨.ok, sym.toList⟩ := by
  rw [decBlkResponse, h]
  rfl

/-- A block that does not decode is answered INVALID_CODEWORD with eight zero bytes (R83). -/
theorem decBlkResponse_of_decodeBlock_eq_none {cfg : Config} {blk : Vector Byte 14}
    (h : decodeBlock cfg.fwd blk = none) :
    decBlkResponse cfg blk = ⟨.invalidCodeword, [0, 0, 0, 0, 0, 0, 0, 0]⟩ := by
  rw [decBlkResponse, h]
  rfl

/-- The status of DEC_BLK is INVALID_CODEWORD exactly where some field of the window has an `Invalid` entry (R82). -/
theorem decBlkResponse_status_eq_invalidCodeword_iff (cfg : Config) (blk : Vector Byte 14) :
    (decBlkResponse cfg blk).status = .invalidCodeword ↔
      ∃ i : Fin 8, romReadRev cfg.fwd ((parse blk).extractLsb' (98 - 14 * i.val) 14) = .invalid := by
  simp only [← windowField_eq_extractLsb', ← decodeBlock_eq_none_iff]
  cases hdec : decodeBlock cfg.fwd blk with
  | none => simp [decBlkResponse_of_decodeBlock_eq_none hdec]
  | some sym => simp [decBlkResponse_of_decodeBlock_eq_some hdec]

/-- Settles O29: DEC_BLK is well-formed for every configuration, so it completes, and its response follows the entries
of the fields of the window its bytes parse to. -/
theorem decBlkDecodes : Obligations.DecBlkDecodes := by
  intro s blk hfwd
  obtain ⟨t, hexec, hdelivers⟩ := exec_delivers (cmd := .decBlk blk) hfwd rfl
  refine ⟨parse blk, decBlkResponse s.cfg blk, t, parse_eq_iff_bytes.1 rfl, hexec, hdelivers, ?_⟩
  simp only [← windowField_eq_extractLsb', ← decodeBlock_eq_some_iff, ← decodeBlock_eq_none_iff]
  exact ⟨fun _ => decBlkResponse_of_decodeBlock_eq_some, decBlkResponse_of_decodeBlock_eq_none⟩

/-- Settles O30: the detector fires on an `Invalid` entry, and an entry is `Invalid` exactly outside the image of
`FWD`. -/
theorem detectorTestsImageMembership : Obligations.DetectorTestsImageMembership := by
  intro cfg blk
  simp only [← romReadRev_eq_invalid_iff]
  exact decBlkResponse_status_eq_invalidCodeword_iff cfg blk

end Sys2Proof.Machine

/-! PROOFS. The statements of 43_buffer_ops.md on the length check of a buffer command (R90, R94) and on its chunks
(R91, R95). -/

namespace Sys2Proof.Machine

/-! ### The chunks of a buffer (R16) -/

/-- The whole `n`-byte chunks of a buffer, in the order in which the sequencer takes them (R16). -/
def bufferChunks (n : Nat) (data : List Byte) : List (Vector Byte n) :=
  (List.range (data.length / n)).map fun j => chunk n j data

/-- A buffer whose length is a multiple of the chunk size is made up of its chunks. -/
theorem flatten_bufferChunks {n : Nat} {data : List Byte} (hn : 0 < n) (h : data.length % n = 0) :
    ((bufferChunks n data).map Vector.toList).flatten = data := by
  rw [bufferChunks, List.map_map]
  exact chunks_flatten hn data (Nat.dvd_of_mod_eq_zero h)

/-! ### The length check (R90, R94) -/

/-- The whole-machine form of a response equation: a well-formed command of an admitted configuration completes with
whatever its response is shown to be. -/
theorem exec_delivers_of_response_eq {s : State} {cmd : Instr} {r : Response} (hfwd : InjectiveFwd s.cfg)
    (hwf : cmd.wellFormed s.cfg = true) (hr : response s.cfg cmd = r) :
    ∃ t, exec cmd s = .next t ∧ Delivers s cmd r t :=
  hr ▸ exec_delivers hfwd hwf

/-- ENC_BUF of a length that is no multiple of 8 is answered INVALID_LENGTH (R90). -/
theorem encBufResponse_of_mod_ne_zero (cfg : Config) {data : List Byte} (h : data.length % 8 ≠ 0) :
    encBufResponse cfg data = ⟨.invalidLength, []⟩ :=
  if_pos h

/-- DEC_BUF of a length that is no multiple of 14 is answered INVALID_LENGTH (R94). -/
theorem decBufResponse_of_mod_ne_zero (cfg : Config) {data : List Byte} (h : data.length % 14 ≠ 0) :
    decBufResponse cfg data = ⟨.invalidLength, []⟩ :=
  if_pos h

/-- Settles O32: a buffer within `LEN_MAX` is well-formed, so the command completes, and the length check answers. -/
theorem encBufChecksLength : Obligations.EncBufChecksLength :=
  fun s _ hfwd hmax hlen =>
    exec_delivers_of_response_eq hfwd (decide_eq_true hmax) (encBufResponse_of_mod_ne_zero s.cfg hlen)

/-- Settles O34: as for ENC_BUF, the length check answers before any chunk is read. -/
theorem decBufChecksLength : Obligations.DecBufChecksLength :=
  fun s _ hfwd hmax hlen =>
    exec_delivers_of_response_eq hfwd (decide_eq_true hmax) (decBufResponse_of_mod_ne_zero s.cfg hlen)

/-! ### ENC_BUF over its chunks (R91) -/

/-- ENC_BUF of whole chunks is answered `OK` with the ENC_BLK payloads of the chunks, in order (R91). -/
theorem encBufResponse_of_mod_eq_zero (cfg : Config) {data : List Byte} (h : data.length % 8 = 0) :
    encBufResponse cfg data =
      ⟨.ok, ((bufferChunks 8 data).map fun c => (response cfg (.encBlk c)).payload).flatten⟩ := by
  rw [encBufResponse, if_neg (not_not.2 h), encChunks_eq, bufferChunks, List.map_map]
  rfl

/-- Settles O33: the encoding loop appends the chunks' blocks, each the payload of ENC_BLK. -/
theorem encBufConcatenatesBlocks : Obligations.EncBufConcatenatesBlocks := by
  intro s data hfwd hmax hlen
  have hresp := encBufResponse_of_mod_eq_zero s.cfg hlen
  have hok := (encBufResponse_payload s.cfg data).resolve_right (by simp [hresp])
  obtain ⟨t, hexec, hdelivers⟩ :=
    exec_delivers_of_response_eq (cmd := .encBuf data) hfwd (decide_eq_true hmax) hresp
  rw [hresp] at hok
  exact ⟨bufferChunks 8 data, _, t, flatten_bufferChunks (by decide) hlen, rfl, hok.2, hexec, hdelivers⟩

/-! ### DEC_BUF over its chunks (R95) -/

/-- The decoding loop over a buffer's chunks succeeds exactly where every chunk decodes, with their symbols. -/
theorem decChunks_eq_some_iff_bufferChunks {fwd : Vector Bits14 256} {data out : List Byte} :
    decChunks fwd data (List.range (data.length / 14)) [] = some out ↔
      ∃ syms : List (Vector Byte 8), (bufferChunks 14 data).map (decodeBlock fwd) = syms.map some ∧
        out = (syms.map Vector.toList).flatten := by
  rw [decChunks_eq_some_iff, bufferChunks, List.map_map]
  rfl

/-- DEC_BLK is `OK` only on a block that decodes (R81, R83). -/
theorem exists_decodeBlock_eq_some_of_status_ok {cfg : Config} {blk : Vector Byte 14}
    (h : (response cfg (.decBlk blk)).status = .ok) : ∃ sym, decodeBlock cfg.fwd blk = some sym := by
  cases hdec : decodeBlock cfg.fwd blk with
  | none => simp [response, decBlkResponse_of_decodeBlock_eq_none hdec] at h
  | some sym => exact ⟨sym, rfl⟩

/-- DEC_BLK is not INVALID_CODEWORD on a block that decodes (R81). -/
theorem decodeBlock_eq_none_of_status_invalidCodeword {cfg : Config} {blk : Vector Byte 14}
    (h : (response cfg (.decBlk blk)).status = .invalidCodeword) : decodeBlock cfg.fwd blk = none := by
  cases hdec : decodeBlock cfg.fwd blk with
  | none => rfl
  | some sym => simp [response, decBlkResponse_of_decodeBlock_eq_some hdec] at h

/-- Blocks on which DEC_BLK is `OK` all decode, and their symbols are the payloads of DEC_BLK. -/
theorem exists_syms_of_forall_status_ok {cfg : Config} {blks : List (Vector Byte 14)}
    (h : ∀ b ∈ blks, (response cfg (.decBlk b)).status = .ok) :
    ∃ syms : List (Vector Byte 8), blks.map (decodeBlock cfg.fwd) = syms.map some ∧
      (blks.map fun b => (response cfg (.decBlk b)).payload) = syms.map Vector.toList := by
  induction blks with
  | nil => exact ⟨[], rfl, rfl⟩
  | cons b blks ih =>
    obtain ⟨hb, hblks⟩ := List.forall_mem_cons.1 h
    obtain ⟨sym, hsym⟩ := exists_decodeBlock_eq_some_of_status_ok hb
    obtain ⟨syms, hdec, hpay⟩ := ih hblks
    refine ⟨sym :: syms, ?_, ?_⟩
    · simp [hsym, hdec]
    · simp [response, decBlkResponse_of_decodeBlock_eq_some hsym, ← hpay]

/-- DEC_BUF of whole chunks is answered by its loop: INVALID_CODEWORD with no data where the loop fails (R93, R95). -/
theorem decBufResponse_of_mod_eq_zero (cfg : Config) {data : List Byte} (h : data.length % 14 = 0) :
    decBufResponse cfg data =
      (decChunks cfg.fwd data (List.range (data.length / 14)) []).elim ⟨.invalidCodeword, []⟩ returnOk := by
  rw [decBufResponse, if_neg (not_not.2 h)]
  cases decChunks cfg.fwd data (List.range (data.length / 14)) [] <;> rfl

/-- "All": where DEC_BLK is `OK` on every chunk, DEC_BUF is `OK` with their payloads in order (R95). -/
theorem decBufResponse_of_forall_ok {cfg : Config} {data : List Byte} (hlen : data.length % 14 = 0)
    (h : ∀ c ∈ bufferChunks 14 data, (response cfg (.decBlk c)).status = .ok) :
    decBufResponse cfg data =
      ⟨.ok, ((bufferChunks 14 data).map fun c => (response cfg (.decBlk c)).payload).flatten⟩ := by
  obtain ⟨syms, hdec, hpay⟩ := exists_syms_of_forall_status_ok h
  rw [decBufResponse_of_mod_eq_zero cfg hlen, decChunks_eq_some_iff_bufferChunks.2 ⟨syms, hdec, rfl⟩, hpay]
  rfl

/-- "Or nothing": where DEC_BLK is INVALID_CODEWORD on some chunk, so is DEC_BUF, with no data (R95). -/
theorem decBufResponse_of_exists_invalid {cfg : Config} {data : List Byte} (hlen : data.length % 14 = 0)
    (h : ∃ c ∈ bufferChunks 14 data, (response cfg (.decBlk c)).status = .invalidCodeword) :
    decBufResponse cfg data = ⟨.invalidCodeword, []⟩ := by
  obtain ⟨c, hc, hbad⟩ := h
  rw [decBufResponse_of_mod_eq_zero cfg hlen]
  cases hloop : decChunks cfg.fwd data (List.range (data.length / 14)) [] with
  | none => rfl
  | some out =>
    obtain ⟨syms, hdec, -⟩ := decChunks_eq_some_iff_bufferChunks.1 hloop
    have hmem : decodeBlock cfg.fwd c ∈ syms.map some := hdec ▸ List.mem_map_of_mem hc
    simp [decodeBlock_eq_none_of_status_invalidCodeword hbad] at hmem

/-- Settles O35: the decoding loop succeeds exactly where every chunk decodes, and an error discards what it has. -/
theorem decBufAllOrNothing : Obligations.DecBufAllOrNothing := by
  intro s data hfwd hmax hlen
  obtain ⟨t, hexec, hdelivers⟩ := exec_delivers (cmd := .decBuf data) hfwd (decide_eq_true hmax)
  refine ⟨bufferChunks 14 data, decBufResponse s.cfg data, t, flatten_bufferChunks (by decide) hlen, hexec,
    hdelivers, fun hall => ?_, decBufResponse_of_exists_invalid hlen⟩
  have hresp := decBufResponse_of_forall_ok hlen hall
  exact ⟨hresp, ((decBufResponse_payload s.cfg data).resolve_right (by simp [hresp])).2⟩

end Sys2Proof.Machine

/-! PROOFS. The statement of 60_exceptions.md on the determinism of responses, errors among them (R108). -/

namespace Sys2Proof.Machine

/-- The pair that a command adds to the observation is fixed by the command and the configuration (R99). -/
theorem exec_next_log {cmd : Instr} {s t : State} (h : exec cmd s = .next t) :
    t.log = s.log ++ [(cmd, response s.cfg cmd)] := by
  obtain ⟨-, -, rfl⟩ := exec_eq_next_iff.1 h
  exact deliver_log ..

/-- Settles O41: the response is the response function of the command and the configuration, which the two states
share. -/
theorem sameCommandSameResponse : Obligations.SameCommandSameResponse := by
  intro cmd s s' t t' hcfg hexec hexec'
  have hlog' : t'.log = s'.log ++ [(cmd, response s.cfg cmd)] := hcfg ▸ exec_next_log hexec'
  exact ⟨response s.cfg cmd, exec_next_log hexec, hlog'⟩

end Sys2Proof.Machine

/-! PROOFS. The statement of 70_reset_and_hazards.md on a reset during a command (R120). -/

namespace Sys2Proof.Machine

/-- Settles O2: the frame of the host's reset; as it keeps the configuration, which with the command fixes the
response, a reissued command has the response that the abandoned one would have had. -/
theorem resetAbandonsBusyCommand : Obligations.ResetAbandonsBusyCommand := by
  intro s ramTables cmd _
  have hcfg : (hostReset ramTables s).cfg = s.cfg := hostReset_cfg s ramTables
  exact ⟨hostReset_slot s ramTables, hostReset_log s ramTables, hcfg, by rw [hcfg]⟩

end Sys2Proof.Machine

/-! PROOFS. The statements of 30_encoding.md on the decoder and the encoder (R57, R58, R60, R69). -/

namespace Sys2Proof

/-- A result mapped to `OK` is the image of one that was `OK`. -/
theorem exceptMap_eq_ok_iff {ε α β : Type} {g : α → β} {x : Except ε α} {b : β} :
    x.map g = .ok b ↔ ∃ a, x = .ok a ∧ g a = b := by
  cases x <;> simp [Except.map]

/-- The decoder reads a frame as a command exactly where the frame is that command's encoding (R58, R69). -/
theorem decode_eq_ok_iff {f : Frame} {cmd : Instr} : decode f = .ok cmd ↔ f = encode cmd := by
  obtain ⟨op, len, payload⟩ := f
  obtain rfl | rfl | rfl | rfl := op_cases op
  · rw [decode_op00, exceptMap_eq_ok_iff]
    cases cmd <;> simp [encode, blockPayload_eq_ok_iff]
  · rw [decode_op01, exceptMap_eq_ok_iff]
    cases cmd <;> simp [encode, blockPayload_eq_ok_iff]
  · rw [decode_op10, exceptMap_eq_ok_iff]
    cases cmd <;> simp [encode, bufferPayload_eq_ok_iff, and_assoc]
  · rw [decode_op11, exceptMap_eq_ok_iff]
    cases cmd <;> simp [encode, bufferPayload_eq_ok_iff, and_assoc]

/-- Decoding a command's encoding gives the command back. -/
@[simp] theorem decode_encode (cmd : Instr) : decode (encode cmd) = .ok cmd := decode_eq_ok_iff.2 rfl

/-- Settles O13: a frame decodes to a command exactly where it is the command's encoding. -/
theorem decodeAndEncodeAgree : Obligations.DecodeAndEncodeAgree :=
  ⟨decode_encode, fun _ _ hdec => (decode_eq_ok_iff.1 hdec).symm⟩

/-- Settles O11: each of the four frames is the encoding of its command. -/
theorem decodeByOpField : Obligations.DecodeByOpField :=
  ⟨fun sym => decode_encode (.encBlk sym), fun blk => decode_encode (.decBlk blk),
    fun data => decode_encode (.encBuf data), fun data => decode_encode (.decBuf data)⟩

/-- A word of the opcode table whose frame is a command's encoding decodes to that command. -/
theorem decodeTableWord_of_tableFrame_eq {w : Nat} {cmd : Instr} (h : tableFrame w = encode cmd) (nbits : Nat) :
    decodeTableWord nbits w = some cmd := by
  simp [decodeTableWord, h]

/-- Settles O12: the frame of each of the four words is the encoding of its command with zero operands. -/
theorem tableWordsDecode : Obligations.TableWordsDecode :=
  ⟨decodeTableWord_of_tableFrame_eq rfl 8, decodeTableWord_of_tableFrame_eq rfl 8,
    decodeTableWord_of_tableFrame_eq rfl 8, decodeTableWord_of_tableFrame_eq rfl 8⟩

/-! ### What the decoder refuses (R58, R60) -/

/-- A mapped result is an error exactly where the result is. -/
theorem exists_exceptMap_eq_error_iff {ε α β : Type} {g : α → β} {x : Except ε α} :
    (∃ e, x.map g = .error e) ↔ ∃ e, x = .error e := by
  cases x <;> simp [Except.map]

/-- A block payload is refused exactly where a `LEN` is carried or the number of bytes is another. -/
theorem blockPayload_error_iff {n : Nat} {f : Frame} :
    (∃ e, blockPayload n f = .error e) ↔ f.len ≠ none ∨ f.payload.length ≠ n := by
  obtain ⟨op, len, payload⟩ := f
  cases len with
  | some m => simp [blockPayload]
  | none => by_cases h : payload.length = n <;> simp [blockPayload, h]

/-- A buffer payload is refused exactly where the `LEN` carried is not its length, or is missing. -/
theorem bufferPayload_error_iff {f : Frame} :
    (∃ e, bufferPayload f = .error e) ↔ f.len ≠ some f.payload.length := by
  obtain ⟨op, len, payload⟩ := f
  cases len with
  | none => simp [bufferPayload]
  | some n => by_cases h : n = payload.length <;> simp [bufferPayload, h]

/-- Settles O14: at each value of `OP` the decoder refuses what its payload reader refuses. -/
theorem decodeRefusesExactlyMalformed : Obligations.DecodeRefusesExactlyMalformed := by
  rintro ⟨op, len, payload⟩
  obtain rfl | rfl | rfl | rfl := op_cases op
  · rw [decode_op00, exists_exceptMap_eq_error_iff, blockPayload_error_iff]; simp
  · rw [decode_op01, exists_exceptMap_eq_error_iff, blockPayload_error_iff]; simp
  · rw [decode_op10, exists_exceptMap_eq_error_iff, bufferPayload_error_iff]; simp
  · rw [decode_op11, exists_exceptMap_eq_error_iff, bufferPayload_error_iff]; simp

end Sys2Proof

/-! PROOFS. The statements of 41_block_encode.md on injectivity and of 42_block_decode.md on the inverse laws (R87). -/

namespace Sys2Proof.Machine

/-- With an injective `FWD` an entry is valid with the one symbol whose codeword is its address (R38). -/
theorem romReadRev_eq_valid_iff_of_injective {cfg : Config} (hfwd : InjectiveFwd cfg) {c : Bits14} {s : Byte} :
    romReadRev cfg.fwd c = .valid s ↔ romReadFwd cfg.fwd s = c := by
  rw [romReadRev_eq_valid_iff, and_iff_left_iff_imp]
  intro hs t ht
  rw [hfwd t s (ht.trans hs.symm)]

/-- The encoder's block is the one whose window fields are the lanes' codewords (R75). -/
theorem encodeBlock_eq_iff {fwd : Vector Bits14 256} {sym : Vector Byte 8} {blk : Vector Byte 14} :
    encodeBlock fwd sym = blk ↔ ∀ i : Fin 8, romReadFwd fwd sym[i] = windowField (parse blk) i := by
  rw [encodeBlock, serialize_eq_iff_parse_eq]
  constructor
  · intro h i
    rw [h, windowField_encodeWindow]
  · intro h
    exact window_eq_of_fields fun i => by rw [windowField_encodeWindow, h i]

/-- The inverse laws on the datapaths: with an injective `FWD` the blocks that decode to `sym` are the one that
encodes it (R87). -/
theorem encodeBlock_eq_iff_decodeBlock_eq_some {cfg : Config} (hfwd : InjectiveFwd cfg) {sym : Vector Byte 8}
    {blk : Vector Byte 14} : encodeBlock cfg.fwd sym = blk ↔ decodeBlock cfg.fwd blk = some sym := by
  simp only [encodeBlock_eq_iff, decodeBlock_eq_some_iff, romReadRev_eq_valid_iff_of_injective hfwd]

/-- With an injective `FWD` an encoded block decodes to its symbols (R87). -/
theorem decodeBlock_encodeBlock {cfg : Config} (hfwd : InjectiveFwd cfg) (sym : Vector Byte 8) :
    decodeBlock cfg.fwd (encodeBlock cfg.fwd sym) = some sym :=
  (encodeBlock_eq_iff_decodeBlock_eq_some hfwd).1 rfl

/-- ENC_BLK is `OK` with the encoder's block and no other (R75). -/
theorem response_encBlk_eq_ok_iff {cfg : Config} {sym : Vector Byte 8} {blk : Vector Byte 14} :
    response cfg (.encBlk sym) = ⟨.ok, blk.toList⟩ ↔ encodeBlock cfg.fwd sym = blk := by
  simp [response, encBlkResponse, returnOk, Vector.toList_inj]

/-- DEC_BLK is `OK` with the symbols that the block decodes to and no others (R81). -/
theorem response_decBlk_eq_ok_iff {cfg : Config} {blk : Vector Byte 14} {sym : Vector Byte 8} :
    response cfg (.decBlk blk) = ⟨.ok, sym.toList⟩ ↔ decodeBlock cfg.fwd blk = some sym := by
  cases hdec : decodeBlock cfg.fwd blk with
  | none => simp [response, decBlkResponse_of_decodeBlock_eq_none hdec]
  | some sym' => simp [response, decBlkResponse_of_decodeBlock_eq_some hdec, Vector.toList_inj]

/-- Settles O31: the responses are the datapaths' results, which are inverse to each other. -/
theorem blockCommandsAreInverse : Obligations.BlockCommandsAreInverse := by
  intro cfg hfwd
  refine ⟨fun sym blk => ?_, fun sym => ⟨encodeBlock cfg.fwd sym, response_encBlk_eq_ok_iff.2 rfl⟩⟩
  rw [response_encBlk_eq_ok_iff, response_decBlk_eq_ok_iff, encodeBlock_eq_iff_decodeBlock_eq_some hfwd]

/-- Settles O27: equal responses carry one block, and it decodes to only one list of symbols. -/
theorem encBlkInjective : Obligations.EncBlkInjective := by
  intro cfg a b hfwd hresp
  have hblk : encodeBlock cfg.fwd a = encodeBlock cfg.fwd b := response_encBlk_eq_ok_iff.1 hresp
  have hdec := decodeBlock_encodeBlock hfwd a
  rw [hblk, decodeBlock_encodeBlock hfwd b] at hdec
  exact (Option.some.inj hdec).symm

end Sys2Proof.Machine

/-! PROOFS. The statements of 43_buffer_ops.md on the round trip (R98), on one block, and on a buffer longer than
`LEN_MAX` (R97). -/

namespace Sys2Proof.Machine

/-- A buffer has as many chunks as its length has room for. -/
theorem length_bufferChunks {n : Nat} {data : List Byte} : (bufferChunks n data).length = data.length / n :=
  (List.length_map _).trans List.length_range

/-- The chunks of a buffer by their numbers. -/
theorem getElem_bufferChunks {n : Nat} {data : List Byte} {j : Nat} (h : j < (bufferChunks n data).length) :
    (bufferChunks n data)[j] = chunk n j data :=
  (List.getElem_map _).trans (congrArg (chunk n · data) (List.getElem_range _))

/-- The chunks of a concatenation of `n`-byte blocks are those blocks (R16). -/
theorem bufferChunks_flatten {n : Nat} (hn : 0 < n) (vs : List (Vector Byte n)) :
    bufferChunks n (vs.map Vector.toList).flatten = vs := by
  have hlen : (vs.map Vector.toList).flatten.length / n = vs.length := by
    rw [length_flatten_toList, Nat.mul_div_cancel _ hn]
  apply List.ext_getElem
  · rw [length_bufferChunks, hlen]
  · intro j hj hj'
    rw [getElem_bufferChunks, chunk_flatten vs j hj']

/-- A buffer that is one block is one chunk. -/
theorem bufferChunks_toList {n : Nat} (hn : 0 < n) (v : Vector Byte n) : bufferChunks n v.toList = [v] := by
  simpa using bufferChunks_flatten hn [v]

/-- The payload of ENC_BLK is the encoder's block (R75). -/
theorem response_encBlk_payload (cfg : Config) (sym : Vector Byte 8) :
    (response cfg (.encBlk sym)).payload = (encodeBlock cfg.fwd sym).toList := by
  rw [response, encBlkResponse, returnOk]

/-- What ENC_BUF makes of a buffer of whole chunks: the chunks' blocks, one after the other (R91). -/
def encodedBuffer (fwd : Vector Bits14 256) (data : List Byte) : List Byte :=
  (((bufferChunks 8 data).map (encodeBlock fwd)).map Vector.toList).flatten

theorem encodedBuffer_eq (fwd : Vector Bits14 256) (data : List Byte) :
    encodedBuffer fwd data = (((bufferChunks 8 data).map (encodeBlock fwd)).map Vector.toList).flatten := rfl

/-- ENC_BUF of whole chunks is `OK` with the encoded buffer. -/
theorem encBufResponse_eq_encodedBuffer (cfg : Config) {data : List Byte} (h : data.length % 8 = 0) :
    encBufResponse cfg data = ⟨.ok, encodedBuffer cfg.fwd data⟩ := by
  rw [encBufResponse_of_mod_eq_zero cfg h, encodedBuffer_eq, List.map_map]
  simp only [response_encBlk_payload, Function.comp_def]

/-- The encoded buffer has 14 bytes for each chunk. -/
theorem length_encodedBuffer (fwd : Vector Bits14 256) (data : List Byte) :
    (encodedBuffer fwd data).length = data.length / 8 * 14 := by
  rw [encodedBuffer_eq, length_flatten_toList, List.length_map, length_bufferChunks]

/-- With an injective `FWD`, DEC_BUF of an encoded buffer of whole chunks is `OK` with the buffer: its chunks are the
encoded blocks, and each decodes to the chunk it came from (R98). -/
theorem decBufResponse_encodedBuffer {cfg : Config} (hfwd : InjectiveFwd cfg) {data : List Byte}
    (h : data.length % 8 = 0) : decBufResponse cfg (encodedBuffer cfg.fwd data) = ⟨.ok, data⟩ := by
  have hwhole : (encodedBuffer cfg.fwd data).length % 14 = 0 := by rw [length_encodedBuffer, Nat.mul_mod_left]
  have hloop : decChunks cfg.fwd (encodedBuffer cfg.fwd data)
      (List.range ((encodedBuffer cfg.fwd data).length / 14)) [] = some data := by
    refine decChunks_eq_some_iff_bufferChunks.2
      ⟨bufferChunks 8 data, ?_, (flatten_bufferChunks (by decide) h).symm⟩
    rw [encodedBuffer_eq, bufferChunks_flatten (by decide), List.map_map]
    exact List.map_congr_left fun c _ => decodeBlock_encodeBlock hfwd c
  rw [decBufResponse_of_mod_eq_zero cfg hwhole, hloop]
  rfl

/-- Settles O36: ENC_BUF delivers the encoded buffer and keeps the configuration, under which DEC_BUF of it delivers
the buffer. -/
theorem bufferRoundTrip : Obligations.BufferRoundTrip := by
  intro s data hfwd hlen hmax hmaxOut
  obtain ⟨t, hexec, hdelivers⟩ := exec_delivers_of_response_eq (cmd := .encBuf data) hfwd (decide_eq_true hmax)
    (encBufResponse_eq_encodedBuffer s.cfg hlen)
  have hcfg : t.cfg = s.cfg := exec_next_cfg hexec
  have hwf : (Instr.decBuf (encodedBuffer s.cfg.fwd data)).wellFormed t.cfg = true :=
    decide_eq_true (by rw [length_encodedBuffer, hcfg]; exact hmaxOut)
  have hback : response t.cfg (.decBuf (encodedBuffer s.cfg.fwd data)) = ⟨.ok, data⟩ :=
    (congrArg (response · _) hcfg).trans (decBufResponse_encodedBuffer hfwd hlen)
  obtain ⟨u, hexec', hdelivers'⟩ := exec_delivers_of_response_eq (hcfg ▸ hfwd) hwf hback
  exact ⟨_, t, u, hexec, hdelivers, hexec', hdelivers'⟩

/-- ENC_BUF of one block has the response of ENC_BLK. -/
theorem response_encBuf_toList (cfg : Config) (sym : Vector Byte 8) :
    response cfg (.encBuf sym.toList) = response cfg (.encBlk sym) := by
  have hresp := encBufResponse_eq_encodedBuffer cfg (data := sym.toList) (by simp)
  rw [encodedBuffer_eq, bufferChunks_toList (by decide)] at hresp
  simpa [response, encBlkResponse, returnOk] using hresp

/-- DEC_BUF of one block has the response of DEC_BLK where the block decodes. -/
theorem response_decBuf_toList_of_ok {cfg : Config} {blk : Vector Byte 14}
    (h : (response cfg (.decBlk blk)).status = .ok) :
    response cfg (.decBuf blk.toList) = response cfg (.decBlk blk) := by
  have hresp := decBufResponse_of_forall_ok (cfg := cfg) (data := blk.toList) (by simp)
    (by simpa [bufferChunks_toList] using h)
  simp only [bufferChunks_toList (show 0 < 14 by decide), List.map_singleton, List.flatten_singleton, ← h] at hresp
  exact hresp

/-- DEC_BUF of one block that does not decode is INVALID_CODEWORD with no data. -/
theorem response_decBuf_toList_of_invalid {cfg : Config} {blk : Vector Byte 14}
    (h : (response cfg (.decBlk blk)).status = .invalidCodeword) :
    response cfg (.decBuf blk.toList) = ⟨.invalidCodeword, []⟩ :=
  decBufResponse_of_exists_invalid (by simp) ⟨blk, by simp [bufferChunks_toList], h⟩

/-- DEC_BLK that is INVALID_CODEWORD has the eight zero bytes of R83. -/
theorem response_decBlk_payload_of_invalid {cfg : Config} {blk : Vector Byte 14}
    (h : (response cfg (.decBlk blk)).status = .invalidCodeword) :
    (response cfg (.decBlk blk)).payload = List.replicate 8 0 := by
  obtain ⟨hok, -⟩ | hbad := decBlkResponse_payload cfg blk
  · exact nomatch h.symm.trans hok
  · exact congrArg Response.payload hbad

/-- DEC_BLK is `OK` or INVALID_CODEWORD. -/
theorem response_decBlk_status_cases (cfg : Config) (blk : Vector Byte 14) :
    (response cfg (.decBlk blk)).status = .ok ∨ (response cfg (.decBlk blk)).status = .invalidCodeword :=
  (decBlkResponse_payload cfg blk).imp And.left (congrArg Response.status)

/-- Settles O37: one block is a buffer of one chunk. -/
theorem bufferAgreesWithBlock : Obligations.BufferAgreesWithBlock := by
  intro cfg
  refine ⟨response_encBuf_toList cfg, fun blk => ⟨?_, response_decBuf_toList_of_ok, fun hbad => ⟨?_, ?_⟩⟩⟩
  · obtain hok | hbad := response_decBlk_status_cases cfg blk
    · rw [response_decBuf_toList_of_ok hok]
    · rw [response_decBuf_toList_of_invalid hbad, hbad]
  · rw [response_decBuf_toList_of_invalid hbad]
  · exact response_decBlk_payload_of_invalid hbad

end Sys2Proof.Machine

/-! PROOFS. The statements of 20_memory.md on an injective `FWD` (R38) and on the codeword bits of a serialized block
(section 4), and of 41_block_encode.md on a block of equal symbols. -/

namespace Sys2Proof.Machine

/-! ### The tables of an injective `FWD` (R38) -/

/-- There are `2^n` words of `n` bits. -/
theorem card_univ_bitVec (n : Nat) : (Finset.univ : Finset (BitVec n)).card = 2 ^ n := by
  rw [Finset.card_univ, ← FinEnum.card_eq_fintypeCard, FinEnum.card_bitVec]

/-- The addresses of valid entries are the codewords of the symbols. -/
theorem filter_romReadRev_ne_invalid (fwd : Vector Bits14 256) :
    (Finset.univ.filter fun c : Bits14 => romReadRev fwd c ≠ .invalid) = Finset.univ.image (romReadFwd fwd) := by
  ext c
  simp [romReadRev_eq_invalid_iff]

/-- R38 (c): an injective `FWD` leaves as many valid entries as there are symbols. -/
theorem card_romReadRev_valid {cfg : Config} (hfwd : InjectiveFwd cfg) :
    (Finset.univ.filter fun c : Bits14 => romReadRev cfg.fwd c ≠ .invalid).card = 256 := by
  rw [filter_romReadRev_ne_invalid, Finset.card_image_of_injective _ (fun s t => hfwd s t), card_univ_bitVec]
  norm_num

/-- R38 (c): the other entries are invalid. -/
theorem card_romReadRev_invalid {cfg : Config} (hfwd : InjectiveFwd cfg) :
    (Finset.univ.filter fun c : Bits14 => romReadRev cfg.fwd c = .invalid).card = 16128 := by
  have hsum := Finset.card_filter_add_card_filter_not (s := Finset.univ)
    (fun c : Bits14 => romReadRev cfg.fwd c = .invalid)
  rw [card_romReadRev_valid hfwd, card_univ_bitVec] at hsum
  omega

/-- Settles O17: with an injective `FWD` an entry is valid with the one symbol whose codeword is its address. -/
theorem revInvertsInjectiveFwd : Obligations.RevInvertsInjectiveFwd := fun cfg hfwd =>
  ⟨fun _ => (romReadRev_eq_valid_iff_of_injective hfwd).2 rfl, romReadRev_eq_invalid_iff cfg.fwd,
    card_romReadRev_valid hfwd, card_romReadRev_invalid hfwd,
    fun _ _ => (romReadRev_eq_valid_iff_of_injective hfwd).1⟩

/-! ### The codeword bits of a serialized block (20_memory.md section 4) -/

/-- A field of a field is a field. -/
theorem extractLsb'_extractLsb' {N : Nat} (w : BitVec N) {start width off len : Nat} (h : off + len ≤ width) :
    (w.extractLsb' start width).extractLsb' off len = w.extractLsb' (start + off) len := by
  apply BitVec.eq_of_getLsbD_eq
  intro j hj
  have hlt : off + j < width := by omega
  simp [hj, hlt, Nat.add_assoc]

/-- Bits that lie within one codeword's place of the window are bits of that codeword. -/
theorem extractLsb'_packWindow_within (cw : Vector Bits14 8) (i : Fin 8) {off len : Nat} (h : off + len ≤ 14) :
    (packWindow cw).extractLsb' (98 - 14 * i.val + off) len = cw[i].extractLsb' off len := by
  rw [← extractLsb'_packWindow cw i, extractLsb'_extractLsb' _ h]

/-- Bits across two neighbouring places, the lower one at `a`, are the `m` low bits of the one codeword, then the `n`
high bits of the next. -/
theorem extractLsb'_packWindow_across (cw : Vector Bits14 8) (i j : Fin 8) {a m n : Nat} (hj : 98 - 14 * j.val = a)
    (hi : 98 - 14 * i.val = a + 14) (hm : m ≤ 14) (hn : n ≤ 14) :
    (packWindow cw).extractLsb' (a + (14 - n)) (m + n) = cw[i].extractLsb' 0 m ++ cw[j].extractLsb' (14 - n) n := by
  have hhigh := extractLsb'_packWindow_within cw i (off := 0) ((Nat.zero_add m).trans_le hm)
  have hlow := extractLsb'_packWindow_within cw j (Nat.sub_add_cancel hn).le
  rw [hi, Nat.add_zero] at hhigh
  rw [hj] at hlow
  rw [← hhigh, ← hlow, BitVec.extractLsb'_append_extractLsb'_eq_extractLsb' (by omega)]

/-- A byte that lies within one codeword's place. -/
theorem getElem_serialize_packWindow_within (cw : Vector Bits14 8) (k : Fin 14) (i : Fin 8) {off : Nat}
    (h : 98 - 14 * i.val + off = 104 - 8 * k.val) (hoff : off + 8 ≤ 14) :
    (serialize (packWindow cw))[k] = cw[i].extractLsb' off 8 := by
  rw [getElem_serialize, ← h, extractLsb'_packWindow_within cw i hoff]

/-- A byte that lies across two places, as the field that its bits are. -/
theorem getElem_serialize_of_field {w : Bits112} {start : Nat} {b : Byte} (hfield : w.extractLsb' start 8 = b)
    (k : Fin 14) (h : start = 104 - 8 * k.val) : (serialize w)[k] = b := by
  rw [getElem_serialize, ← h, hfield]

/-- Settles O24: each byte lies within one codeword's place or across two. -/
theorem codewordsAcrossBytes : Obligations.CodewordsAcrossBytes := by
  rintro cw _ rfl
  have hwithin := getElem_serialize_packWindow_within cw
  have hacross := extractLsb'_packWindow_across cw
  exact ⟨hwithin 0 0 rfl (by decide),
    getElem_serialize_of_field (hacross 0 1 rfl rfl (m := 6) (n := 2) (by decide) (by decide)) 1 rfl,
    hwithin 2 1 rfl (by decide),
    getElem_serialize_of_field (hacross 1 2 rfl rfl (m := 4) (n := 4) (by decide) (by decide)) 3 rfl,
    hwithin 4 2 rfl (by decide),
    getElem_serialize_of_field (hacross 2 3 rfl rfl (m := 2) (n := 6) (by decide) (by decide)) 5 rfl,
    hwithin 6 3 rfl (by decide),
    hwithin 7 4 rfl (by decide),
    getElem_serialize_of_field (hacross 4 5 rfl rfl (m := 6) (n := 2) (by decide) (by decide)) 8 rfl,
    hwithin 9 5 rfl (by decide),
    getElem_serialize_of_field (hacross 5 6 rfl rfl (m := 4) (n := 4) (by decide) (by decide)) 10 rfl,
    hwithin 11 6 rfl (by decide),
    getElem_serialize_of_field (hacross 6 7 rfl rfl (m := 2) (n := 6) (by decide) (by decide)) 12 rfl,
    hwithin 13 7 rfl (by decide)⟩

/-! ### A block of equal symbols (41_block_encode.md, corner case (a)) -/

/-- Every bit of half a window lies in one of its four places. -/
theorem halfLane_cover (j : Nat) (h : j < 56) : ∃ k : Fin 4, 14 * k.val ≤ j ∧ j < 14 * k.val + 14 :=
  ⟨⟨j / 14, by omega⟩, Nat.mul_div_le j 14, Nat.lt_mul_div_succ j (by decide)⟩

/-- The four places of the high and of the low half, counted from the half's low end (R64). -/
theorem halfLane_offset : ∀ k : Fin 4,
    98 - 14 * (3 - k.val) = 56 + 14 * k.val ∧ 98 - 14 * (7 - k.val) = 0 + 14 * k.val := by decide

/-- The halves of a window of eight equal codewords are equal. -/
theorem halves_packWindow_replicate (c : Bits14) :
    (packWindow (Vector.replicate 8 c)).extractLsb' 56 56 = (packWindow (Vector.replicate 8 c)).extractLsb' 0 56 := by
  have hfield (i : Fin 8) : (packWindow (Vector.replicate 8 c)).extractLsb' (98 - 14 * i.val) 14 = c :=
    (extractLsb'_packWindow _ i).trans (Vector.getElem_replicate i.isLt)
  refine eq_of_fields (fun k : Fin 4 => 14 * k.val) halfLane_cover fun k => ?_
  obtain ⟨hoffHigh, hoffLow⟩ := halfLane_offset k
  have hhigh := hfield ⟨3 - k.val, by omega⟩
  have hlow := hfield ⟨7 - k.val, by omega⟩
  rw [hoffHigh] at hhigh
  rw [hoffLow] at hlow
  rw [extractLsb'_extractLsb' _ (by omega), extractLsb'_extractLsb' _ (by omega), hhigh, hlow]

/-- Equal symbols have equal codewords. -/
theorem laneCodewords_replicate (fwd : Vector Bits14 256) (x : Byte) :
    laneCodewords fwd (Vector.replicate 8 x) = Vector.replicate 8 (romReadFwd fwd x) := by
  ext i hi
  simp [laneCodewords]

/-- A byte of a serialized window as a byte of the half of the window that holds it. -/
theorem getElem_serialize_of_half (w : Bits112) (k : Fin 14) {start off : Nat} (hoff : off + 8 ≤ 56)
    (h : start + off = 104 - 8 * k.val) : (serialize w)[k] = (w.extractLsb' start 56).extractLsb' off 8 := by
  rw [getElem_serialize, extractLsb'_extractLsb' _ hoff, h]

/-- The serialized bytes of a window of eight equal codewords repeat after seven. -/
theorem getElem_serialize_replicate (c : Bits14) {k : Nat} (h : k < 7) :
    (serialize (packWindow (Vector.replicate 8 c)))[k]
      = (serialize (packWindow (Vector.replicate 8 c)))[k + 7] := by
  have hoff : 48 - 8 * k + 8 ≤ 56 := by omega
  have hhigh := getElem_serialize_of_half (packWindow (Vector.replicate 8 c)) ⟨k, by omega⟩ (start := 56) hoff
    (by simp only; omega)
  have hlow := getElem_serialize_of_half (packWindow (Vector.replicate 8 c)) ⟨k + 7, by omega⟩ (start := 0) hoff
    (by simp only; omega)
  rw [halves_packWindow_replicate] at hhigh
  exact hhigh.trans hlow.symm

/-- Settles O28: the seven bytes of one half of a window of eight equal codewords are those of the other. -/
theorem equalLanesPeriodSeven : Obligations.EqualLanesPeriodSeven := by
  intro cfg x k
  have hbyte := getElem_serialize_replicate (romReadFwd cfg.fwd x) k.isLt
  rw [← laneCodewords_replicate, ← encodeWindow, ← encodeBlock] at hbyte
  have hk : k.val < 14 := by omega
  have hk' : k.val + 7 < 14 := by omega
  simp [response, encBlkResponse, returnOk, hk, hk', hbyte]

end Sys2Proof.Machine

/-! PROOFS. The statement of 60_exceptions.md on who raises each error and when (R101, R102, R104). -/

namespace Sys2Proof.Machine

/-- The chunks of a buffer by their numbers (R16). -/
theorem mem_bufferChunks {n : Nat} {data : List Byte} {c : Vector Byte n} :
    c ∈ bufferChunks n data ↔ ∃ j < data.length / n, chunk n j data = c := by
  simp only [List.mem_iff_getElem, length_bufferChunks, getElem_bufferChunks, exists_prop]

/-- ENC_BUF is INVALID_LENGTH exactly where the length is no multiple of 8 (R90). -/
theorem encBufResponse_status_eq_invalidLength_iff (cfg : Config) (data : List Byte) :
    (encBufResponse cfg data).status = .invalidLength ↔ data.length % 8 ≠ 0 := by
  by_cases hlen : data.length % 8 = 0
  · simp [encBufResponse_eq_encodedBuffer cfg hlen, hlen]
  · simp [encBufResponse_of_mod_ne_zero cfg hlen, hlen]

/-- ENC_BUF is never INVALID_CODEWORD (R102). -/
theorem encBufResponse_status_ne_invalidCodeword (cfg : Config) (data : List Byte) :
    (encBufResponse cfg data).status ≠ .invalidCodeword := by
  obtain ⟨hok, -⟩ | hbad := encBufResponse_payload cfg data
  · simp [hok]
  · simp [hbad]

/-- DEC_BUF of whole chunks is `OK`, or INVALID_CODEWORD exactly where DEC_BLK of some chunk is (R95). -/
theorem decBufResponse_status_of_mod_eq_zero (cfg : Config) {data : List Byte} (hlen : data.length % 14 = 0) :
    (decBufResponse cfg data).status ≠ .invalidLength ∧
    ((decBufResponse cfg data).status = .invalidCodeword ↔
      ∃ c ∈ bufferChunks 14 data, (response cfg (.decBlk c)).status = .invalidCodeword) := by
  by_cases hbad : ∃ c ∈ bufferChunks 14 data, (response cfg (.decBlk c)).status = .invalidCodeword
  · simp [decBufResponse_of_exists_invalid hlen hbad, hbad]
  · have hall : ∀ c ∈ bufferChunks 14 data, (response cfg (.decBlk c)).status = .ok := fun c hc =>
      (response_decBlk_status_cases cfg c).resolve_right fun h => hbad ⟨c, hc, h⟩
    simp [decBufResponse_of_forall_ok hlen hall, hbad]

/-- DEC_BUF is INVALID_LENGTH exactly where the length is no multiple of 14 (R94). -/
theorem decBufResponse_status_eq_invalidLength_iff (cfg : Config) (data : List Byte) :
    (decBufResponse cfg data).status = .invalidLength ↔ data.length % 14 ≠ 0 := by
  by_cases hlen : data.length % 14 = 0
  · simp [(decBufResponse_status_of_mod_eq_zero cfg hlen).1, hlen]
  · simp [decBufResponse_of_mod_ne_zero cfg hlen, hlen]

/-- DEC_BUF is INVALID_CODEWORD exactly where the length is right and DEC_BLK of some chunk is (R95, R104). -/
theorem decBufResponse_status_eq_invalidCodeword_iff (cfg : Config) (data : List Byte) :
    (decBufResponse cfg data).status = .invalidCodeword ↔
      data.length % 14 = 0 ∧ ∃ j < data.length / 14,
        (response cfg (.decBlk (chunk 14 j data))).status = .invalidCodeword := by
  by_cases hlen : data.length % 14 = 0
  · simp [(decBufResponse_status_of_mod_eq_zero cfg hlen).2, mem_bufferChunks, hlen]
  · simp [decBufResponse_of_mod_ne_zero cfg hlen, hlen]

/-- DEC_BLK is never INVALID_LENGTH (R101). -/
theorem decBlkResponse_status_ne_invalidLength (cfg : Config) (blk : Vector Byte 14) :
    (decBlkResponse cfg blk).status ≠ .invalidLength := by
  obtain hok | hbad := response_decBlk_status_cases cfg blk
  · exact fun h => nomatch h.symm.trans hok
  · exact fun h => nomatch h.symm.trans hbad

/-- Settles O40: error by error and command by command; ENC_BLK is always `OK`. -/
theorem errorsRaisedExactlyWhen : Obligations.ErrorsRaisedExactlyWhen := by
  intro cfg
  exact ⟨encBufResponse_status_eq_invalidLength_iff cfg, decBufResponse_status_eq_invalidLength_iff cfg,
    fun _ => nofun, decBlkResponse_status_ne_invalidLength cfg, decBlkResponse_status_eq_invalidCodeword_iff cfg,
    fun _ => nofun, encBufResponse_status_ne_invalidCodeword cfg, decBufResponse_status_eq_invalidCodeword_iff cfg⟩

end Sys2Proof.Machine

/-! PROOFS. What a step does in each situation: the rules that the statements on the interface use (R25, R37, R97,
R117, R121, R125). -/

namespace Sys2Proof.Machine

/-! ### A configuration that is not admitted (R37) -/

/-- The guard refuses a configuration whose `FWD` is not injective. -/
theorem guardConfig_of_not_injective {s : State} (hfwd : ¬ InjectiveFwd s.cfg) (k : Result) :
    guardConfig s k = .refused .tableNotInjective :=
  if_neg (mt (admitted_iff_injectiveFwd s.cfg).1 hfwd)

/-- A command of such a configuration is refused. -/
theorem exec_of_not_injective {s : State} (hfwd : ¬ InjectiveFwd s.cfg) (cmd : Instr) :
    exec cmd s = .refused .tableNotInjective := by
  rw [exec_eq, if_neg (mt (admitted_iff_injectiveFwd s.cfg).1 hfwd)]

/-- A command too long for an admitted configuration is stuck (R97). -/
theorem exec_of_not_wellFormed {s : State} {cmd : Instr} (hfwd : InjectiveFwd s.cfg)
    (hlong : cmd.wellFormed s.cfg = false) : exec cmd s = .fault .noStepOverLenMax := by
  rw [exec_eq, if_pos ((admitted_iff_injectiveFwd s.cfg).2 hfwd), hlong]
  rfl

/-! ### The held commands (R125) -/

/-- Only the presented queues decide what a requester holds. -/
theorem portQueue_congr {s t : State} (h : t.ports = s.ports) (p : Nat) : portQueue t p = portQueue s p := by
  rw [portQueue, h, ← portQueue]

/-- A requester that holds a command has a queue of its own. -/
theorem lt_length_ports_of_portQueue_ne_nil {s : State} {p : Nat} (h : portQueue s p ≠ []) : p < s.ports.length := by
  by_contra hge
  exact h (List.getD_eq_default _ _ (Nat.not_lt.1 hge))

/-- No requester waits exactly where none holds a command. -/
theorem waiting_eq_nil_iff {s : State} : waiting s = [] ↔ ∀ p, portQueue s p = [] := by
  have hwaits (p : Nat) : p ∈ waiting s ↔ portQueue s p ≠ [] :=
    mem_waiting.trans (and_iff_right_of_imp lt_length_ports_of_portQueue_ne_nil)
  simp only [List.eq_nil_iff_forall_not_mem (l := waiting s), hwaits, not_not]

/-- Wherever a requester holds a command, one that holds a command is chosen (R53). -/
theorem exists_chooseRequester_eq_some {s : State} {p : Nat} (h : portQueue s p ≠ []) :
    ∃ q, chooseRequester s = some q ∧ portQueue s q ≠ [] := by
  have hwait : chooseRequester s ≠ none := fun hnone =>
    h (waiting_eq_nil_iff.1 (chooseRequester_eq_none_iff.1 hnone) p)
  obtain ⟨q, hq⟩ := Option.ne_none_iff_exists'.1 hwait
  exact ⟨q, hq, (mem_waiting.1 (chooseRequester_mem hq)).2⟩

/-! ### A step of a busy and of an idle codec (R25) -/

/-- A busy codec runs the slot's command. -/
theorem step_of_busy {s : State} {cmd : Instr} (h : s.slot = .busy cmd) : step s = exec cmd s := by
  cases s
  cases h
  rfl

/-- An idle codec waits or accepts. -/
theorem step_of_idle {s : State} (h : s.slot = .idle) : step s = acceptNext s := by
  cases s
  cases h
  rfl

/-- An idle codec of an admitted configuration does what the guard of the configuration guards (R37). -/
theorem step_of_idle_injective {s : State} {k : Result} (hfwd : InjectiveFwd s.cfg) (hidle : s.slot = .idle)
    (hk : acceptNext s = guardConfig s k) : step s = k :=
  ((step_of_idle hidle).trans hk).trans (guardConfig_of_admitted ((admitted_iff_injectiveFwd _).2 hfwd) k)

/-- The codec waits before its tables are present (R117, R122). -/
theorem step_of_not_ready {s : State} (hfwd : InjectiveFwd s.cfg) (hidle : s.slot = .idle)
    (hready : s.tablesReady = false) : step s = .next s := by
  refine (step_of_idle_injective hfwd hidle rfl).trans ?_
  rw [hready]
  rfl

/-- The codec waits where no requester is chosen (R121). -/
theorem step_of_none_chosen {s : State} (hfwd : InjectiveFwd s.cfg) (hidle : s.slot = .idle)
    (hnone : chooseRequester s = none) : step s = .next s := by
  refine (step_of_idle_injective hfwd hidle rfl).trans ?_
  rw [hnone]
  exact ite_self _

/-- The codec with its tables present turns to the chosen requester. -/
theorem step_of_chosen {s : State} {p : Nat} (hfwd : InjectiveFwd s.cfg) (hidle : s.slot = .idle)
    (hready : s.tablesReady = true) (hp : chooseRequester s = some p) : step s = acceptFrom s p := by
  refine (step_of_idle_injective hfwd hidle rfl).trans ?_
  rw [hready, hp]
  rfl

/-- What becomes of a requester's first command that decodes: stuck where it is too long (R97), else accepted. -/
theorem acceptFrom_of_decode {s : State} {p : Nat} {f : Frame} {cmd : Instr} (hf : (portQueue s p).head? = some f)
    (hdec : decode f = .ok cmd) :
    acceptFrom s p = if cmd.wellFormed s.cfg then .next (accepted s p cmd) else .fault .noStepOverLenMax := by
  obtain ⟨rest, hq⟩ := List.head?_eq_some_iff.1 hf
  simp only [acceptFrom, hq, hdec, commandTooLong_eq]
  cases cmd.wellFormed s.cfg <;> rfl

/-- The codec accepts the chosen requester's first command where it fits. -/
theorem step_of_chosen_wellFormed {s : State} {p : Nat} {f : Frame} {cmd : Instr} (hfwd : InjectiveFwd s.cfg)
    (hidle : s.slot = .idle) (hready : s.tablesReady = true) (hp : chooseRequester s = some p)
    (hf : (portQueue s p).head? = some f) (hdec : decode f = .ok cmd) (hwf : cmd.wellFormed s.cfg = true) :
    step s = .next (accepted s p cmd) := by
  rw [step_of_chosen hfwd hidle hready hp, acceptFrom_of_decode hf hdec, if_pos hwf]

/-- Where some command is held and every first one decodes and fits, one of them is accepted. -/
theorem exists_step_eq_accepted {s : State} (hfwd : InjectiveFwd s.cfg) (hidle : s.slot = .idle)
    (hready : s.tablesReady = true) (hheld : ∃ p, portQueue s p ≠ [])
    (hheads : ∀ p f, (portQueue s p).head? = some f → ∃ cmd, decode f = .ok cmd ∧ cmd.wellFormed s.cfg = true) :
    ∃ p f cmd, (portQueue s p).head? = some f ∧ decode f = .ok cmd ∧ cmd.wellFormed s.cfg = true ∧
      step s = .next (accepted s p cmd) := by
  obtain ⟨_, hne⟩ := hheld
  obtain ⟨p, hp, hq⟩ := exists_chooseRequester_eq_some hne
  have hf := List.head?_eq_some_head hq
  obtain ⟨cmd, hdec, hwf⟩ := hheads p _ hf
  exact ⟨p, _, cmd, hf, hdec, hwf, step_of_chosen_wellFormed hfwd hidle hready hp hf hdec hwf⟩

/-- A busy codec delivers the response to a command that fits (R99, R129). -/
theorem step_of_busy_wellFormed {s : State} {cmd : Instr} (hfwd : InjectiveFwd s.cfg) (hbusy : s.slot = .busy cmd)
    (hwf : cmd.wellFormed s.cfg = true) : step s = .next (deliver s cmd (response s.cfg cmd)) := by
  rw [step_of_busy hbusy]
  exact exec_eq_next_iff.2 ⟨(admitted_iff_injectiveFwd _).2 hfwd, hwf, rfl⟩

end Sys2Proof.Machine

/-! PROOFS. The statements on a single step of the interface: a configuration that is refused (R37), waiting (R121,
R122), acceptance and dispatch (R25, R125), a buffer longer than `LEN_MAX` (R97), completion (R129), reset and boot
(R119, R123). -/

namespace Sys2Proof.Machine

/-- Settles O19: the guard comes first, in a command and in an idle codec's step. -/
theorem nonInjectiveTableRefused : Obligations.NonInjectiveTableRefused := by
  refine ⟨fun cmd s hfwd => exec_of_not_injective hfwd cmd, fun s hfwd => ?_⟩
  cases hslot : s.slot with
  | idle => exact (step_of_idle hslot).trans (guardConfig_of_not_injective hfwd _)
  | busy cmd => exact (step_of_busy hslot).trans (exec_of_not_injective hfwd cmd)

/-- Settles O3: where none holds a command, none is chosen. -/
theorem idleCodecWaits : Obligations.IdleCodecWaits := fun _ hfwd hidle hnone =>
  step_of_none_chosen hfwd hidle (chooseRequester_eq_none_iff.2 (waiting_eq_nil_iff.2 hnone))

/-- Settles O4: the tables gate acceptance. -/
theorem noAcceptBeforeTables : Obligations.NoAcceptBeforeTables := fun _ => step_of_not_ready

/-- After `withFetchWord` of a word that decodes, the slot holds its command (log 13). -/
theorem withFetchWord_slot {s : State} {nbits w : Nat} {cmd : Instr} (h : decodeTableWord nbits w = some cmd) :
    (s.withFetchWord nbits w).slot = .busy cmd := by
  rw [State.withFetchWord, h]
  exact loadSlot_slot s cmd

/-- Settles O5: the choice, the acceptance with its frame, and the dispatch of what the slot holds. -/
theorem stepRunsDecodedCommand : Obligations.StepRunsDecodedCommand := by
  refine ⟨fun _ _ => exists_chooseRequester_eq_some, ?_, fun _ _ => step_of_busy,
    fun _ _ _ _ h => step_of_busy (withFetchWord_slot h)⟩
  intro s p f rest cmd hfwd hidle hready hp hq hdec hwf
  have hne : portQueue s p ≠ [] := by simp [hq]
  have hqueues := portQueue_accepted cmd (lt_length_ports_of_portQueue_ne_nil hne)
  refine ⟨accepted s p cmd, step_of_chosen_wellFormed hfwd hidle hready hp (by simp [hq]) hdec hwf,
    accepted_slot .., by simp [hqueues, hq], fun q hne => by simp [hqueues, hne], accepted_cfg ..,
    accepted_tablesReady .., accepted_log .., step_of_busy (accepted_slot ..)⟩

/-- Settles O38: the length check of a command, and of an acceptance. -/
theorem overLenMaxHasNoStep : Obligations.OverLenMaxHasNoStep := by
  intro s data hfwd hlong
  have hwf : ∀ cmd : Instr, cmd = .encBuf data ∨ cmd = .decBuf data → cmd.wellFormed s.cfg = false := by
    rintro _ (rfl | rfl) <;> exact decide_eq_false (Nat.not_le.2 hlong)
  refine ⟨exec_of_not_wellFormed hfwd (hwf _ (.inl rfl)), exec_of_not_wellFormed hfwd (hwf _ (.inr rfl)), ?_⟩
  intro cmd p rest hcmd hidle hready hp hq
  rw [step_of_chosen hfwd hidle hready hp, acceptFrom_of_decode (by rw [hq]; rfl) (decode_encode cmd),
    hwf cmd hcmd]
  rfl

/-- Settles O6: a presentation joins one queue, and a busy codec's step only delivers. -/
theorem busyCodecHoldsCommands : Obligations.BusyCodecHoldsCommands := by
  refine fun s => ⟨fun p f => ⟨by simp [portQueue_present], fun q hne => by simp [portQueue_present, hne],
    present_slot .., present_tablesReady .., present_log .., present_cfg ..⟩, fun cmd t hbusy hstep => ?_⟩
  obtain ⟨-, -, rfl⟩ := exec_eq_next_iff.1 ((step_of_busy hbusy).symm.trans hstep)
  exact ⟨deliver_ports .., deliver_slot ..⟩

/-- Settles O7: a step delivers, waits or accepts. -/
theorem noCommandLostOrMerged : Obligations.NoCommandLostOrMerged := by
  intro s t hstep
  obtain ⟨-, ⟨cmd, hbusy, -, rfl⟩ | ⟨hidle, rfl⟩ | ⟨hidle, p, f, cmd, -, hp, hf, hdec, -, rfl⟩⟩ := step_eq_next hstep
  · refine ⟨.inl ⟨deliver_ports .., deliver_slot ..⟩, fun cmd' hbusy' => ?_, fun hidle => ?_⟩
    · cases hbusy.symm.trans hbusy'
      exact ⟨_, deliver_log ..⟩
    · exact nomatch hbusy.symm.trans hidle
  · exact ⟨.inl ⟨rfl, hidle⟩, fun _ hbusy => (nomatch hidle.symm.trans hbusy), fun _ => rfl⟩
  · have hqueues := portQueue_accepted cmd (mem_waiting.1 (chooseRequester_mem hp)).1
    obtain ⟨rest, hq⟩ := List.head?_eq_some_iff.1 hf
    exact ⟨.inr ⟨p, f, cmd, hidle, accepted_slot .., hdec, by simp [hqueues, hq],
        fun q hne => by simp [hqueues, hne]⟩,
      fun _ hbusy => (nomatch hidle.symm.trans hbusy), fun _ => accepted_log ..⟩

/-- Settles O8: a busy codec's step is `exec` of a command that fits. -/
theorem acceptedCommandCompletes : Obligations.AcceptedCommandCompletes := fun _ _ hfwd hbusy hwf =>
  ⟨_, step_of_busy_wellFormed hfwd hbusy hwf, delivers_deliver ..⟩

/-- Settles O45: the frame of a reset and of the end of a load; the codec is then idle with its tables present, and
holds what it held. -/
theorem resetAndBootOrder : Obligations.ResetAndBootOrder := by
  refine fun s => ⟨fun b => ⟨hostReset_slot s b, hostReset_log s b, hostReset_cfg s b, hostReset_ports s b⟩,
    hostReset_tablesReady s false, hostReset_tablesReady s true, tablesLoaded_tablesReady s, tablesLoaded_slot s,
    tablesLoaded_log s, tablesLoaded_cfg s, tablesLoaded_ports s,
    fun hfwd => step_of_not_ready hfwd (hostReset_slot s true) (hostReset_tablesReady s true), ?_⟩
  intro hfwd hheld hheads u hu
  obtain ⟨hidle, hready, hcfg, hports⟩ :
      u.slot = .idle ∧ u.tablesReady = true ∧ u.cfg = s.cfg ∧ u.ports = s.ports := by
    obtain rfl | rfl := hu <;> simp
  simp only [← portQueue_congr hports] at hheld hheads ⊢
  rw [← hcfg] at hfwd hheads
  obtain ⟨p, f, cmd, hf, hdec, -, hstep⟩ := exists_step_eq_accepted hfwd hidle hready hheld hheads
  exact ⟨p, f, cmd, _, hf, hdec, hstep, accepted_slot ..⟩

end Sys2Proof.Machine

/-! PROOFS. The statement of 10_state.md on several codecs side by side (R32). -/

namespace Sys2Proof.Machine

/-- A codec of the list takes the step that it takes alone. -/
theorem stepInstance_of_step {k : Nat} {m : List State} {s t : State} (hk : m[k]? = some s) (hstep : step s = .next t) :
    stepInstance k m = .next (m.set k t) := by
  simp [stepInstance, hk, hstep]

/-- What a step of codec `k` of the list does when it answers: nothing where there is no such codec, else its own step. -/
theorem stepInstance_eq_next {k : Nat} {m m' : List State} (h : stepInstance k m = .next m') :
    (m[k]? = none ∧ m' = m) ∨ ∃ s t, m[k]? = some s ∧ step s = .next t ∧ m' = m.set k t := by
  unfold stepInstance at h
  split at h
  · next hk => exact .inl ⟨hk, (Host.Outcome.next.inj h).symm⟩
  · next s hk =>
    split at h
    · next t hstep => exact .inr ⟨s, t, hk, hstep, (Host.Outcome.next.inj h).symm⟩
    · cases h
    · cases h

/-- Settles O10: a step of codec `k` writes place k of the list with the answer of its own step. -/
theorem instancesAreIndependent : Obligations.InstancesAreIndependent := by
  have hplace {k : Nat} {m : List State} {s : State} (hk : m[k]? = some s) (t : State) : (m.set k t)[k]? = some t :=
    List.getElem?_set_self (List.getElem?_eq_some_iff.1 hk).1
  refine ⟨fun k m m' h => ?_, fun k m s t hk hstep => ⟨_, stepInstance_of_step hk hstep, hplace hk t⟩⟩
  obtain ⟨hk, rfl⟩ | ⟨s, t, hk, hstep, rfl⟩ := stepInstance_eq_next h
  · exact ⟨rfl, fun _ _ => rfl, fun s hs => nomatch hk.symm.trans hs⟩
  · refine ⟨List.length_set, fun j hj => List.getElem?_set_ne hj.symm, fun s' hs' => ?_⟩
    obtain rfl : s = s' := Option.some.inj (hk.symm.trans hs')
    exact ⟨t, hstep, hplace hk t⟩

end Sys2Proof.Machine

/-! PROOFS. The invariant of a sound run, over every step and over what the host does. -/

namespace Sys2Proof.Machine

/-- A change of state that keeps the configuration and the observation, and puts no command into the slot nor takes
the tables from under one, keeps the invariant. -/
theorem State.Inv.of_frame {s t : State} (hinv : s.Inv) (hcfg : t.cfg = s.cfg) (hlog : t.log = s.log)
    (hslot : ∀ cmd, t.slot = .busy cmd → s.slot = .busy cmd ∧ (s.tablesReady = true → t.tablesReady = true)) :
    t.Inv := by
  obtain ⟨hfwd, hbusy, hpairs⟩ := hinv
  refine ⟨hcfg ▸ hfwd, fun cmd ht => ?_, ?_⟩
  · obtain ⟨hs, hready⟩ := hslot cmd ht
    exact ⟨hcfg ▸ (hbusy cmd hs).1, hready (hbusy cmd hs).2⟩
  · rw [hlog, hcfg]
    exact hpairs

/-- Delivering the response of a command that fits keeps the invariant. -/
theorem State.Inv.deliver {s : State} {cmd : Instr} (hinv : s.Inv) (hwf : cmd.wellFormed s.cfg = true) :
    (deliver s cmd (response s.cfg cmd)).Inv := by
  obtain ⟨hfwd, -, hpairs⟩ := hinv
  refine ⟨hfwd, fun _ h => (nomatch h), fun e he => ?_⟩
  obtain he | rfl : e ∈ s.log ∨ e = (cmd, response s.cfg cmd) := by simpa using he
  · exact hpairs e he
  · exact ⟨hwf, rfl⟩

/-- Accepting a command that fits, with the tables present, keeps the invariant. -/
theorem State.Inv.accepted {s : State} {cmd : Instr} (hinv : s.Inv) (hready : s.tablesReady = true)
    (hwf : cmd.wellFormed s.cfg = true) (p : Nat) : (accepted s p cmd).Inv := by
  obtain ⟨hfwd, -, hpairs⟩ := hinv
  refine ⟨hfwd, fun cmd' hslot => ?_, hpairs⟩
  obtain rfl : cmd = cmd' := Slot.busy.inj hslot
  exact ⟨hwf, hready⟩

/-- Settles O43: a step delivers, waits or accepts, and each keeps the invariant. -/
theorem stepKeepsInvariant : Obligations.StepKeepsInvariant := by
  intro s t hinv hstep
  obtain ⟨-, ⟨cmd, -, hwf, rfl⟩ | ⟨-, rfl⟩ | ⟨-, p, f, cmd, hready, -, -, -, hwf, rfl⟩⟩ := step_eq_next hstep
  · exact hinv.deliver hwf
  · exact hinv
  · exact hinv.accepted hready hwf p

/-- Settles O44: the host puts no command into the slot, and a reset that takes the tables away empties it. -/
theorem hostKeepsInvariant : Obligations.HostKeepsInvariant := fun s hinv =>
  ⟨fun p f => hinv.of_frame (present_cfg s p f) (present_log s p f) fun _ h => ⟨h, id⟩,
    fun b => hinv.of_frame (hostReset_cfg s b) (hostReset_log s b) fun _ h => (nomatch h),
    hinv.of_frame (tablesLoaded_cfg s) (tablesLoaded_log s) fun _ h => ⟨h, fun _ => rfl⟩⟩

end Sys2Proof.Machine

/-! PROOFS. The statements on whole runs: the lists of one and of several requesters are served (R53, R72, R129,
R131). -/

namespace Sys2Proof.Machine

/-! ### Runs -/

/-- A run whose first step answers goes on from the answer. -/
theorem run_succ {s t : State} (hstep : step s = .next t) (k : Nat) :
    Sys2Proof.core.run (k + 1) s = Sys2Proof.core.run k t := by
  have hcore : Sys2Proof.core.step s = .next t := hstep
  simp only [Host.Core.run, hcore]

/-- A run has ended where the slot is idle and nothing is held (R131). -/
theorem runEnded_of_idle {s : State} (hidle : s.slot = .idle) (hnone : ∀ p, portQueue s p = []) :
    runEnded s = true := by
  simp [runEnded, hidle, waiting_eq_nil_iff.2 hnone]

/-! ### Lists of commands and their interleavings (R53) -/

/-- `order` is an interleaving of the lists: its commands tagged with number `p` are list `p`, in its order, and no
other tag occurs. -/
def Interleaves (order : List (Nat × Instr)) (queues : List (List Instr)) : Prop :=
  (∀ e ∈ order, e.1 < queues.length) ∧
  ∀ p q, queues[p]? = some q → (order.filter fun e => e.1 == p).map Prod.snd = q

/-- Lists that are all empty interleave to the empty order. -/
theorem Interleaves.nil {queues : List (List Instr)} (h : queues.flatten = []) : Interleaves [] queues := by
  refine ⟨fun _ he => (nomatch he), fun p q hq => ?_⟩
  exact (List.flatten_eq_nil_iff.1 h q (List.mem_of_getElem? hq)).symm

/-- The head of one list, then an interleaving of what is left, interleaves the lists. -/
theorem Interleaves.cons {order : List (Nat × Instr)} {queues : List (List Instr)} {p : Nat} {cmd : Instr}
    {rest : List Instr} (hp : queues[p]? = some (cmd :: rest)) (h : Interleaves order (queues.set p rest)) :
    Interleaves ((p, cmd) :: order) queues := by
  obtain ⟨htags, hlists⟩ := h
  have hlt : p < queues.length := (List.getElem?_eq_some_iff.1 hp).1
  refine ⟨?_, fun p' q hq => ?_⟩
  · exact List.forall_mem_cons.2 ⟨hlt, fun e he => List.length_set (as := queues) ▸ htags e he⟩
  · by_cases hpp : p = p'
    · subst hpp
      obtain rfl := Option.some.inj (hp.symm.trans hq)
      simpa using hlists p rest (List.getElem?_set_self hlt)
    · simpa [hpp] using hlists p' q ((List.getElem?_set_ne hpp).trans hq)

/-- An interleaving of one list is that list. -/
theorem Interleaves.map_snd_of_singleton {order : List (Nat × Instr)} {cmds : List Instr}
    (h : Interleaves order [cmds]) : order.map Prod.snd = cmds := by
  obtain ⟨htags, hlists⟩ := h
  have hall : ∀ e ∈ order, (e.1 == 0) = true := fun e he => by simpa using htags e he
  rw [← hlists 0 cmds rfl, List.filter_eq_self.2 hall]

/-- Taking the head of one list leaves one command less. -/
theorem length_flatten_set {queues : List (List Instr)} {p : Nat} {cmd : Instr} {rest : List Instr}
    (hp : queues[p]? = some (cmd :: rest)) : queues.flatten.length = (queues.set p rest).flatten.length + 1 := by
  induction queues generalizing p with
  | nil => simp at hp
  | cons q queues ih =>
    cases p with
    | zero =>
      obtain rfl : q = cmd :: rest := by simpa using hp
      simp
    | succ p =>
      simp only [List.set_cons_succ, List.flatten_cons, List.length_append, ih (p := p) (by simpa using hp)]
      omega

/-! ### Serving the requesters -/

/-- An idle codec, admitted and with its tables present, at which the requesters hold these lists of commands, each
within `LEN_MAX`. -/
def Serving (s : State) (queues : List (List Instr)) : Prop :=
  InjectiveFwd s.cfg ∧ s.slot = .idle ∧ s.tablesReady = true ∧ s.ports = queues.map (fun q => q.map encode) ∧
  ∀ q ∈ queues, ∀ cmd ∈ q, cmd.wellFormed s.cfg = true

namespace Serving

variable {s : State} {queues : List (List Instr)}

/-- A requester's queue holds the encodings of its list. -/
theorem portQueue_eq (h : Serving s queues) (p : Nat) : portQueue s p = (queues.getD p []).map encode := by
  obtain ⟨-, -, -, hports, -⟩ := h
  rw [portQueue, hports, List.getD_eq_getElem?_getD, List.getElem?_map, List.getD_eq_getElem?_getD]
  cases queues[p]? <;> rfl

/-- A requester's first presented command is the encoding of the head of its list. -/
theorem head_eq (h : Serving s queues) {p : Nat} {f : Frame} (hf : (portQueue s p).head? = some f) :
    ∃ cmd rest, queues[p]? = some (cmd :: rest) ∧ f = encode cmd := by
  rw [h.portQueue_eq, List.getD_eq_getElem?_getD] at hf
  cases hp : queues[p]? with
  | none => simp [hp] at hf
  | some q =>
    cases q with
    | nil => simp [hp] at hf
    | cons cmd rest => exact ⟨cmd, rest, rfl, by simpa [hp] using hf.symm⟩

/-- Every first presented command decodes and fits. -/
theorem heads_decode (h : Serving s queues) (p : Nat) (f : Frame) (hf : (portQueue s p).head? = some f) :
    ∃ cmd, decode f = .ok cmd ∧ cmd.wellFormed s.cfg = true := by
  obtain ⟨cmd, rest, hp, rfl⟩ := h.head_eq hf
  obtain ⟨-, -, -, -, hwf⟩ := h
  exact ⟨cmd, decode_encode cmd, hwf _ (List.mem_of_getElem? hp) cmd (by simp)⟩

/-- Where a list is not empty, some requester holds a command. -/
theorem exists_held (h : Serving s queues) (hne : queues.flatten ≠ []) : ∃ p, portQueue s p ≠ [] := by
  obtain ⟨q, hq, hqne⟩ := List.flatten_ne_nil_iff.1 hne
  obtain ⟨p, hp⟩ := List.mem_iff_getElem?.1 hq
  exact ⟨p, by simpa [h.portQueue_eq, hp] using hqne⟩

/-- Two steps serve one command: the head of one list is accepted, and its response delivered (log 7). -/
theorem two_steps (h : Serving s queues) (hne : queues.flatten ≠ []) :
    ∃ p cmd rest t u, queues[p]? = some (cmd :: rest) ∧ step s = .next t ∧ step t = .next u ∧
      Serving u (queues.set p rest) ∧ u.cfg = s.cfg ∧ u.log = s.log ++ [(cmd, response s.cfg cmd)] := by
  obtain ⟨hfwd, hidle, hready, hports, hall⟩ := id h
  obtain ⟨p, f, cmd, hf, hdec, hwf, hstep⟩ :=
    exists_step_eq_accepted hfwd hidle hready (h.exists_held hne) h.heads_decode
  obtain ⟨cmd', rest, hp, rfl⟩ := h.head_eq hf
  obtain rfl : cmd' = cmd := Except.ok.inj ((decode_encode cmd').symm.trans hdec)
  refine ⟨p, cmd', rest, _, _, hp, hstep, step_of_busy_wellFormed hfwd (accepted_slot ..) hwf,
    ⟨hfwd, deliver_slot .., hready, ?_, ?_⟩, rfl, rfl⟩
  · rw [deliver_ports, accepted_ports, hports, h.portQueue_eq, List.map_set]
    simp [hp]
  · intro q hq c hc
    obtain hq | rfl := List.mem_or_eq_of_mem_set hq
    · exact hall q hq c hc
    · exact hall _ (List.mem_of_getElem? hp) c (List.mem_cons_of_mem _ hc)

/-- Two steps a command serve all the lists, in some interleaving. -/
theorem run_eq_next (h : Serving s queues) {n : Nat} (hn : queues.flatten.length = n) :
    ∃ order t, Interleaves order queues ∧ Sys2Proof.core.run (2 * n) s = .next t ∧
      t.log = s.log ++ order.map (fun e => (e.2, response s.cfg e.2)) ∧ runEnded t = true ∧ t.cfg = s.cfg := by
  induction n generalizing s queues with
  | zero =>
    have hnil : queues.flatten = [] := List.eq_nil_of_length_eq_zero hn
    have hnone : ∀ p, portQueue s p = [] := by
      by_contra! hheld
      obtain ⟨p, hp⟩ := hheld
      obtain ⟨cmd, rest, hq, -⟩ := h.head_eq (List.head?_eq_some_head hp)
      exact nomatch List.flatten_eq_nil_iff.1 hnil _ (List.mem_of_getElem? hq)
    obtain ⟨-, hidle, -⟩ := h
    exact ⟨[], s, Interleaves.nil hnil, rfl, (List.append_nil _).symm, runEnded_of_idle hidle hnone, rfl⟩
  | succ n ih =>
    have hne : queues.flatten ≠ [] := List.ne_nil_of_length_eq_add_one hn
    obtain ⟨p, cmd, rest, t, u, hp, hst, htu, hu, hcfg, hlog⟩ := h.two_steps hne
    have hleft := (length_flatten_set hp).symm.trans hn
    obtain ⟨order, v, horder, hrun, hlog', hended, hcfg'⟩ := ih hu (Nat.succ.inj hleft)
    refine ⟨(p, cmd) :: order, v, horder.cons hp, (run_succ hst _).trans ((run_succ htu _).trans hrun), ?_,
      hended, hcfg'.trans hcfg⟩
    rw [hlog', hlog, hcfg]
    simp

end Serving

/-- Settles O46: two steps serve one command, and leave the codec serving the lists without it. -/
theorem severalRequestersAreServed : Obligations.SeveralRequestersAreServed := by
  intro s queues hfwd hidle hready hports hwf
  obtain ⟨order, t, ⟨htags, hlists⟩, hrun, hend⟩ := Serving.run_eq_next ⟨hfwd, hidle, hready, hports, hwf⟩ rfl
  exact ⟨order, t, htags, hlists, hrun, hend⟩

/-- Settles O9: the one interleaving of one list is that list. -/
theorem programRunsInOrder : Obligations.ProgramRunsInOrder := by
  intro s cmds hfwd hidle hready hports hwf
  have hserving : Serving s [cmds] := ⟨hfwd, hidle, hready, hports, by simpa using hwf⟩
  obtain ⟨order, t, horder, hrun, hlog, hend⟩ := hserving.run_eq_next (n := cmds.length) (by simp)
  refine ⟨t, hrun, ?_, hend⟩
  rw [hlog, ← horder.map_snd_of_singleton, List.map_map]
  rfl

end Sys2Proof.Machine

/-! PROOFS. The statements that rest on the reference table (R40; PRESUMED, log 2): its properties, and the reset state
(R119, R121). -/

namespace Sys2Proof.Machine

/-! ### The reference table (R40) -/

/-- A read of the reference table is one of its listed codewords. -/
theorem romReadFwd_fwdEfm_mem (s : Byte) : romReadFwd fwdEfm s ∈ fwdEfmList :=
  List.mem_of_getElem (getElem_toList_eq_romReadFwd fwdEfm s (toNat_lt_length_fwd fwdEfm s))

set_option maxRecDepth 4000 in
/-- The 256 listed codewords pass the admission check (R37). -/
theorem distinctFrom_fwdEfmList : distinctFrom 0 fwdEfmList = true := by decide

/-- R40 (a): the reference table is admitted. -/
theorem injectiveFwd_configReset : InjectiveFwd configReset :=
  (admitted_iff_injectiveFwd configReset).1 distinctFrom_fwdEfmList

set_option maxRecDepth 4000 in
/-- R40 (b) to (d) as conditions on the value of each listed codeword: no one-bit has another one or two places above
it; bits 1 to 11 are not all zero, nor are bits 2 to 12, nor the low nine bits; and the bounds. Written as a test of
natural numbers, which is cheap to run over the list. -/
theorem fwdEfmList_values : ∀ c ∈ fwdEfmList,
    c.toNat &&& c.toNat >>> 1 = 0 ∧ c.toNat &&& c.toNat >>> 2 = 0 ∧
    1 ≤ c.toNat >>> 1 % 2048 ∧ 1 ≤ c.toNat >>> 2 % 2048 ∧ 1 ≤ c.toNat % 512 ∧
    0x0020 ≤ c.toNat ∧ c.toNat ≤ 0x2492 := by
  have htest : (fwdEfmList.all fun c =>
      Nat.beq (c.toNat &&& c.toNat >>> 1) 0 && Nat.beq (c.toNat &&& c.toNat >>> 2) 0 &&
      Nat.ble 1 (c.toNat >>> 1 % 2048) && Nat.ble 1 (c.toNat >>> 2 % 2048) && Nat.ble 1 (c.toNat % 512) &&
      Nat.ble 0x0020 c.toNat && Nat.ble c.toNat 0x2492) = true := by decide
  simpa only [List.all_eq_true, Bool.and_eq_true, Nat.beq_eq, Nat.ble_eq, and_assoc] using htest

/-- Bits that meet none of the bits `d` places above them. -/
theorem testBit_add_eq_false {n d i : Nat} (h : n &&& n >>> d = 0) (hi : n.testBit i = true) :
    n.testBit (d + i) = false := by
  simpa [hi] using congrArg (Nat.testBit · i) h

/-- Eleven zero bits, as a value. -/
theorem shiftRight_mod_2048_eq_zero {n i : Nat} (h : ∀ k < 11, n.testBit (i + k) = false) : n >>> i % 2048 = 0 := by
  apply Nat.eq_of_testBit_eq
  intro k
  rw [show 2048 = 2 ^ 11 from rfl, Nat.testBit_mod_two_pow, Nat.testBit_shiftRight, Nat.zero_testBit]
  by_cases hk : k < 11
  · rw [h k hk, Bool.and_false]
  · rw [decide_eq_false hk, Bool.false_and]

/-- R40 (b): the first two conditions keep consecutive one-bits 3 places apart; the others leave no room for 12, which
only bits 0 and 1 have above them. -/
theorem gap_of_value {c : Bits14} (h1 : c.toNat &&& c.toNat >>> 1 = 0) (h2 : c.toNat &&& c.toNat >>> 2 = 0)
    (hlow : 1 ≤ c.toNat >>> 1 % 2048) (hhigh : 1 ≤ c.toNat >>> 2 % 2048) (i j : Fin 14) (hij : i < j)
    (hi : c.getLsbD i = true) (hj : c.getLsbD j = true)
    (hzeros : ∀ k : Fin 14, i < k → k < j → c.getLsbD k = false) : 3 ≤ j.val - i.val ∧ j.val - i.val ≤ 11 := by
  have hne (d : Nat) (h : c.toNat &&& c.toNat >>> d = 0) : j.val ≠ d + i.val := by
    rintro hd
    rw [hd] at hj
    exact Bool.false_ne_true ((testBit_add_eq_false h hi).symm.trans hj)
  have hne1 := hne 1 h1
  have hne2 := hne 2 h2
  refine ⟨by omega, Nat.not_lt.1 fun hfar => ?_⟩
  have hbetween : c.toNat >>> (i.val + 1) % 2048 = 0 := shiftRight_mod_2048_eq_zero fun k hk =>
    hzeros ⟨i.val + 1 + k, by omega⟩ (Fin.lt_def.2 (by simp only; omega)) (Fin.lt_def.2 (by simp only; omega))
  obtain hi0 | hi1 : i.val = 0 ∨ i.val = 1 := by omega
  · rw [hi0] at hbetween
    exact Nat.ne_of_gt hlow hbetween
  · rw [hi1] at hbetween
    exact Nat.ne_of_gt hhigh hbetween

/-- R40 (c): a value of at least 2^5 has a one-bit among the top nine. -/
theorem top_bits_ne_zero {c : Bits14} (h : 0x0020 ≤ c.toNat) : c.extractLsb' 5 9 ≠ 0 := by
  intro hzero
  have hval : c.toNat >>> 5 % 2 ^ 9 = 0 := (BitVec.extractLsb'_toNat 5 9 c).symm.trans (congrArg BitVec.toNat hzero)
  rw [Nat.shiftRight_eq_div_pow] at hval
  have hlt := c.isLt
  omega

/-- R40 (c): the low nine bits are the value modulo 2^9. -/
theorem low_bits_ne_zero {c : Bits14} (h : 1 ≤ c.toNat % 512) : c.extractLsb' 0 9 ≠ 0 := fun hzero =>
  Nat.ne_of_gt h ((BitVec.extractLsb'_toNat 0 9 c).symm.trans (congrArg BitVec.toNat hzero))

/-- R40 (e): a value outside the bounds of the codewords is the codeword of no symbol. -/
theorem romReadRev_fwdEfm_eq_invalid {c : Bits14} (h : c.toNat < 0x0020 ∨ 0x2492 < c.toNat) :
    romReadRev fwdEfm c = .invalid := by
  refine (romReadRev_eq_invalid_iff fwdEfm c).2 ?_
  rintro s rfl
  obtain ⟨-, -, -, -, -, hmin, hmax⟩ := fwdEfmList_values _ (romReadFwd_fwdEfm_mem s)
  omega

/-- Settles O21: every read is a listed codeword, whose value says (b) to (d); (e) follows from the bounds. -/
theorem referenceTableProperties : Obligations.ReferenceTableProperties := by
  have hvalues (s : Byte) := fwdEfmList_values _ (romReadFwd_fwdEfm_mem s)
  refine ⟨injectiveFwd_configReset, fun s => ?_, fun s => ?_, fun s => ?_, by decide, by decide,
    romReadRev_fwdEfm_eq_invalid (.inl (by decide)), romReadRev_fwdEfm_eq_invalid (.inr (by decide))⟩
  · obtain ⟨h1, h2, hlow, hhigh, -⟩ := hvalues s
    exact gap_of_value h1 h2 hlow hhigh
  · obtain ⟨-, -, -, -, hnine, hmin, -⟩ := hvalues s
    exact ⟨top_bits_ne_zero hmin, low_bits_ne_zero hnine⟩
  · obtain ⟨-, -, -, -, -, hbounds⟩ := hvalues s
    exact hbounds

/-! ### The reset state -/

/-- In `State.reset` no requester holds a command (log 6). -/
theorem portQueue_reset (p : Nat) : portQueue State.reset p = [] := rfl

/-- Settles O1: the fields of the reset state, which waits as nothing is held in it. -/
theorem resetWaitsIdle : Obligations.ResetWaitsIdle :=
  ⟨rfl, rfl, rfl, portQueue_reset, romReadRev_eq_buildRev _,
    idleCodecWaits State.reset injectiveFwd_configReset rfl portQueue_reset⟩

/-- Settles O42: the reset configuration is admitted, and the slot and the observation are empty. -/
theorem invariantAtReset : Obligations.InvariantAtReset :=
  ⟨injectiveFwd_configReset, fun _ h => (nomatch h), fun _ h => nomatch h⟩

end Sys2Proof.Machine
